-- ==== Sys2Proof/Word.lean ====
section
/-!
DEFINITION. The 32-bit word, the 3-bit register index and the byte (R5, R7, R20).
-/

namespace Sys2Proof

/-- A 32-bit word: a value word, a command word or a raw result (R5, R65). -/
abbrev Word := BitVec 32

/-- The index of a value register `F0`..`F7` (R20, R66): every 3-bit pattern names one. -/
abbrev Reg := BitVec 3

/-- A byte lane of a word on a byte-addressed host bus (R43). -/
abbrev Byte := BitVec 8

end Sys2Proof
end

