-- ==== Sys2Proof/Syntax.lean ====
section
/-!
DEFINITION. The commands of the block (R65 to R68) and the host's accesses (R41, R44, R75), as syntax.
-/

namespace Sys2Proof

/-- The two operand forms of a command (R67). -/
inductive Form where
  /-- Two sources: `rd`, `rs1`, `rs2`. -/
  | r
  /-- One source: `rd`, `rs1`; the `rs2` field must be `000`. -/
  | u
  deriving DecidableEq, Repr

/-- The twenty legal opcodes, in the order of the opcode map (R68). -/
inductive Opcode where
  | neg | abs | add | sub | mul | div | sqrt | exp | ln | log2
  | log10 | sin | sinc | cosc | tanc | cfrac | fromint | data | cls | mkval
  deriving DecidableEq, Repr

/-- The form each opcode fixes (R67, R68). -/
def Opcode.form : Opcode → Form
  | .neg => .u | .abs => .u | .add => .r | .sub => .r | .mul => .r | .div => .r
  | .sqrt => .u | .exp => .u | .ln => .u | .log2 => .u | .log10 => .u
  | .sin => .u | .sinc => .u | .cosc => .u | .tanc => .u | .cfrac => .u
  | .fromint => .u | .data => .u | .cls => .u | .mkval => .r

/-- One command of the block: one constructor per row of the opcode table, its registers in the
order of the assembler syntax, destination first (R68, R73). -/
inductive Instr where
  | neg (rd rs1 : Reg)
  | abs (rd rs1 : Reg)
  | add (rd rs1 rs2 : Reg)
  | sub (rd rs1 rs2 : Reg)
  | mul (rd rs1 rs2 : Reg)
  | div (rd rs1 rs2 : Reg)
  | sqrt (rd rs1 : Reg)
  | exp (rd rs1 : Reg)
  | ln (rd rs1 : Reg)
  | log2 (rd rs1 : Reg)
  | log10 (rd rs1 : Reg)
  | sin (rd rs1 : Reg)
  | sinc (rd rs1 : Reg)
  | cosc (rd rs1 : Reg)
  | tanc (rd rs1 : Reg)
  | cfrac (rd rs1 : Reg)
  | fromint (rd rs1 : Reg)
  | data (rd rs1 : Reg)
  | cls (rd rs1 : Reg)
  | mkval (rd rs1 rs2 : Reg)
  deriving DecidableEq, Repr

/-- The opcode of a command (R68). -/
def Instr.opcode : Instr → Opcode
  | .neg _ _ => .neg
  | .abs _ _ => .abs
  | .add _ _ _ => .add
  | .sub _ _ _ => .sub
  | .mul _ _ _ => .mul
  | .div _ _ _ => .div
  | .sqrt _ _ => .sqrt
  | .exp _ _ => .exp
  | .ln _ _ => .ln
  | .log2 _ _ => .log2
  | .log10 _ _ => .log10
  | .sin _ _ => .sin
  | .sinc _ _ => .sinc
  | .cosc _ _ => .cosc
  | .tanc _ _ => .tanc
  | .cfrac _ _ => .cfrac
  | .fromint _ _ => .fromint
  | .data _ _ => .data
  | .cls _ _ => .cls
  | .mkval _ _ _ => .mkval

/-- The destination register of a command (R66). -/
def Instr.rd : Instr → Reg
  | .neg rd _ => rd
  | .abs rd _ => rd
  | .add rd _ _ => rd
  | .sub rd _ _ => rd
  | .mul rd _ _ => rd
  | .div rd _ _ => rd
  | .sqrt rd _ => rd
  | .exp rd _ => rd
  | .ln rd _ => rd
  | .log2 rd _ => rd
  | .log10 rd _ => rd
  | .sin rd _ => rd
  | .sinc rd _ => rd
  | .cosc rd _ => rd
  | .tanc rd _ => rd
  | .cfrac rd _ => rd
  | .fromint rd _ => rd
  | .data rd _ => rd
  | .cls rd _ => rd
  | .mkval rd _ _ => rd

/-- The first source register of a command (R66). -/
def Instr.rs1 : Instr → Reg
  | .neg _ r => r
  | .abs _ r => r
  | .add _ r _ => r
  | .sub _ r _ => r
  | .mul _ r _ => r
  | .div _ r _ => r
  | .sqrt _ r => r
  | .exp _ r => r
  | .ln _ r => r
  | .log2 _ r => r
  | .log10 _ r => r
  | .sin _ r => r
  | .sinc _ r => r
  | .cosc _ r => r
  | .tanc _ r => r
  | .cfrac _ r => r
  | .fromint _ r => r
  | .data _ r => r
  | .cls _ r => r
  | .mkval _ r _ => r

/-- The second source register of a command, absent in form `U` (R66, R67). -/
def Instr.rs2 : Instr → Option Reg
  | .neg _ _ => none
  | .abs _ _ => none
  | .add _ _ r => some r
  | .sub _ _ r => some r
  | .mul _ _ r => some r
  | .div _ _ r => some r
  | .sqrt _ _ => none
  | .exp _ _ => none
  | .ln _ _ => none
  | .log2 _ _ => none
  | .log10 _ _ => none
  | .sin _ _ => none
  | .sinc _ _ => none
  | .cosc _ _ => none
  | .tanc _ _ => none
  | .cfrac _ _ => none
  | .fromint _ _ => none
  | .data _ _ => none
  | .cls _ _ => none
  | .mkval _ _ r => some r

/-- The five fields of a command word (R65), its opcode number already looked up in the opcode
map: `none` is a reserved number. -/
structure Command where
  op : Option Opcode
  rd : Reg
  rs1 : Reg
  rs2 : Reg
  zero : BitVec 17
  deriving DecidableEq, Repr

/-- Why a command word is illegal (R70), one name for each of the rule's three clauses. -/
inductive Illegal where
  /-- `c[5:0]` is `0x00` or in `0x15..0x3F` (R71). -/
  | reservedOpcode
  /-- `c[31:15]` is not zero (R69). -/
  | reservedBits
  /-- The opcode is of form `U` and `c[14:12]` is not `000` (R67). -/
  | secondSourceInFormU
  deriving DecidableEq, Repr

/-- The width of a host access (R44, R52: the signal `size`). -/
inductive Width where
  | bits8 | bits16 | bits32 | bits64
  deriving DecidableEq, Repr

/-- One host access to the window (R40, R45, R52): the byte offset is 6 bits, since the block decodes
only `0 ≤ off < 64`. The data of a write is the bus's `wdata[31:0]`, whatever its width (DESIGN CHOICE, log entry 16). -/
inductive Access where
  | read (size : Width) (off : BitVec 6)
  | write (size : Width) (off : BitVec 6) (data : Word)
  deriving DecidableEq, Repr

/-- The offset an access names. -/
def Access.off : Access → BitVec 6
  | .read _ o => o
  | .write _ o _ => o

/-- The width of an access. -/
def Access.size : Access → Width
  | .read z _ => z
  | .write z _ _ => z

/-- What the outside does to the block next (R47, R52, R260). A request made while `rst = 1` is held (R260): it
stands after the `rst` events (DESIGN CHOICE, log entry 15). -/
inductive Input where
  /-- A cycle with `rst = 1` (R260). -/
  | rst
  /-- A cycle in which the host asks nothing. -/
  | idle
  /-- A request of the host, waiting until the block performs it. -/
  | access (a : Access)
  deriving DecidableEq, Repr

end Sys2Proof
end

