-- ==== Sys2Proof/WellFormed.lean ====
section
/-!
DEFINITION. When the fields of a command word are well formed: the three clauses of R70, one check each.
Every term of `Instr` is well formed, because its register fields are 3-bit indices and each constructor
carries exactly the registers its form uses; so the checks are on `Command`, the fields of a word (R65).
-/

namespace Sys2Proof

/-- The opcode number is one of the twenty of the opcode map (R68, R71). -/
def Command.opcodeDefined (c : Command) : Bool := c.op.isSome

/-- Bits 31:15 are zero (R69). -/
def Command.reservedClear (c : Command) : Bool := c.zero == 0

/-- A form-`U` opcode has `rs2 = 000` (R67). -/
def Command.secondSourceOk (c : Command) : Bool :=
  match c.op with
  | none => true
  | some op => op.form == .r || c.rs2 == 0

/-- The fields are those of a legal command word (R70). -/
def Command.wf (c : Command) : Bool :=
  c.opcodeDefined && c.reservedClear && c.secondSourceOk

end Sys2Proof
end

