-- ==== Sys2Proof/Decode.lean ====
section
/-!
DEFINITION. The decoder and the encoder of command words (R65 to R71), and the opcode map as mask and match.
-/

namespace Sys2Proof

/-- The number of an opcode, `c[5:0]` (R68). -/
def Opcode.code : Opcode → BitVec 6
  | .neg => 0x01 | .abs => 0x02 | .add => 0x03 | .sub => 0x04 | .mul => 0x05 | .div => 0x06
  | .sqrt => 0x07 | .exp => 0x08 | .ln => 0x09 | .log2 => 0x0A | .log10 => 0x0B
  | .sin => 0x0C | .sinc => 0x0D | .cosc => 0x0E | .tanc => 0x0F | .cfrac => 0x10
  | .fromint => 0x11 | .data => 0x12 | .cls => 0x13 | .mkval => 0x14

/-- The opcode a number names; `none` for the reserved numbers `0x00` and `0x15..0x3F` (R68, R71). -/
def opcodeOfCode (n : BitVec 6) : Option Opcode :=
  match n.toNat with
  | 0x01 => some .neg
  | 0x02 => some .abs
  | 0x03 => some .add
  | 0x04 => some .sub
  | 0x05 => some .mul
  | 0x06 => some .div
  | 0x07 => some .sqrt
  | 0x08 => some .exp
  | 0x09 => some .ln
  | 0x0A => some .log2
  | 0x0B => some .log10
  | 0x0C => some .sin
  | 0x0D => some .sinc
  | 0x0E => some .cosc
  | 0x0F => some .tanc
  | 0x10 => some .cfrac
  | 0x11 => some .fromint
  | 0x12 => some .data
  | 0x13 => some .cls
  | 0x14 => some .mkval
  | _ => none

/-- The five fields of a command word (R65, R66). -/
def commandFields (c : Word) : Command where
  op := opcodeOfCode (c.extractLsb' 0 6)
  rd := c.extractLsb' 6 3
  rs1 := c.extractLsb' 9 3
  rs2 := c.extractLsb' 12 3
  zero := c.extractLsb' 15 17

/-- The command an opcode and its register fields make (R66, R67). -/
def assemble (op : Opcode) (rd rs1 rs2 : Reg) : Instr :=
  match op with
  | .neg => .neg rd rs1
  | .abs => .abs rd rs1
  | .add => .add rd rs1 rs2
  | .sub => .sub rd rs1 rs2
  | .mul => .mul rd rs1 rs2
  | .div => .div rd rs1 rs2
  | .sqrt => .sqrt rd rs1
  | .exp => .exp rd rs1
  | .ln => .ln rd rs1
  | .log2 => .log2 rd rs1
  | .log10 => .log10 rd rs1
  | .sin => .sin rd rs1
  | .sinc => .sinc rd rs1
  | .cosc => .cosc rd rs1
  | .tanc => .tanc rd rs1
  | .cfrac => .cfrac rd rs1
  | .fromint => .fromint rd rs1
  | .data => .data rd rs1
  | .cls => .cls rd rs1
  | .mkval => .mkval rd rs1 rs2

/-- The decoder: the command of a legal word, or the clause of R70 that makes the word illegal (the first that
holds, in the rule's order). It depends on the word alone. -/
def decode (c : Word) : Except Illegal Instr :=
  let k := commandFields c
  match k.op with
  | none => .error .reservedOpcode
  | some op =>
    if !k.reservedClear then .error .reservedBits
    else if !k.secondSourceOk then .error .secondSourceInFormU
    else .ok (assemble op k.rd k.rs1 k.rs2)

/-- A command word is legal when the decoder accepts it (R70). -/
def legal (c : Word) : Bool := (decode c).isOk

/-- The encoder, from the format of R65; a form-`U` command has `rs2 = 000` (R67, R73). -/
def encode (i : Instr) : Word :=
  0#17 ++ i.rs2.getD 0#3 ++ i.rs1 ++ i.rd ++ i.opcode.code

/-- One row of the opcode map: a word `c` selects it when `(c & mask) == pattern` (R68). -/
structure OpcodeRow where
  op : Opcode
  pattern : Word
  mask : Word
  deriving DecidableEq, Repr

/-- The opcode map of R68, columns `match` and `mask`. -/
def opcodeMap : List OpcodeRow :=
  [⟨.neg, 0x00000001, 0xFFFFF03F⟩, ⟨.abs, 0x00000002, 0xFFFFF03F⟩,
   ⟨.add, 0x00000003, 0xFFFF803F⟩, ⟨.sub, 0x00000004, 0xFFFF803F⟩,
   ⟨.mul, 0x00000005, 0xFFFF803F⟩, ⟨.div, 0x00000006, 0xFFFF803F⟩,
   ⟨.sqrt, 0x00000007, 0xFFFFF03F⟩, ⟨.exp, 0x00000008, 0xFFFFF03F⟩,
   ⟨.ln, 0x00000009, 0xFFFFF03F⟩, ⟨.log2, 0x0000000A, 0xFFFFF03F⟩,
   ⟨.log10, 0x0000000B, 0xFFFFF03F⟩, ⟨.sin, 0x0000000C, 0xFFFFF03F⟩] ++
  [⟨.sinc, 0x0000000D, 0xFFFFF03F⟩, ⟨.cosc, 0x0000000E, 0xFFFFF03F⟩,
   ⟨.tanc, 0x0000000F, 0xFFFFF03F⟩, ⟨.cfrac, 0x00000010, 0xFFFFF03F⟩,
   ⟨.fromint, 0x00000011, 0xFFFFF03F⟩, ⟨.data, 0x00000012, 0xFFFFF03F⟩,
   ⟨.cls, 0x00000013, 0xFFFFF03F⟩, ⟨.mkval, 0x00000014, 0xFFFF803F⟩]

/-- The word selects the row (R68). -/
def OpcodeRow.selects (r : OpcodeRow) (c : Word) : Bool := c &&& r.mask == r.pattern

/-- The instruction the decoder reads from a table word of `nbits` bits; a word with no bits above `nbits` set is the
whole 32-bit command word, since a command is one word (R65). -/
def decodeTableWord (nbits w : Nat) : Option Instr :=
  match decode (BitVec.ofNat 32 (w % 2 ^ nbits)) with
  | .ok i => some i
  | .error _ => none

end Sys2Proof
end

