-- ==== Sys2Proof/Config.lean ====
section
/-!
DEFINITION. What an implementation or a platform fixes and the spec leaves open (R6): the latency table and the
window's base. Both are opaque: no proof can see a value, so a theorem holds for every value. The kinds of
the parameters whose value the spec gives stand here too, their values in Machine/Params.lean.
-/

namespace Sys2Proof

/-- `LAT(op) - 1` for each opcode (R268, OPEN): nothing says what it is, only that it depends on the
opcode alone (DESIGN CHOICE, log entry 5: a free value). -/
opaque Config.extraCycles : Opcode → Nat

/-- `LAT(op)`: cycles from accepting a command to its completion, at least 1 (R6, R268). -/
def Config.lat (op : Opcode) : Nat := Config.extraCycles op + 1

/-- Which multiple of 64 the window's base address is (R40, OPEN; DESIGN CHOICE, log entry 10: a free value). -/
opaque Config.windowIndex : Nat

/-- `P_BASE`, the base address of the register window: a platform parameter, a multiple of 64 (R40). -/
def Config.pBase : Nat := 64 * Config.windowIndex

/-- The two byte-lane orders of a byte-addressed host bus (R43, `P_LANES`). -/
inductive Lanes where
  | little | big
  deriving DecidableEq, Repr

/-- The two sign rules for infinities produced by `MUL` and `DIV` (R140, `P_INFSIGN`). -/
inductive InfSign where
  | addStyle | xorSign
  deriving DecidableEq, Repr

end Sys2Proof
end

