-- ==== Sys2Proof/Machine/State.lean ====
section
/-!
DEFINITION. The state of the block (10_state.md R20 to R33), its reset value (R32, R260), and the reasons a step can stop.
-/

namespace Sys2Proof.Machine

/-- The in-flight command (R30): what was accepted, the operand words read at acceptance (`b` is absent in
form `U`, R100), and the number of cycles left until it writes its result.
DESIGN CHOICE (log entry 8): the opcode and `rd` are kept as the decoded command. -/
structure InFlight where
  instr : Instr
  a : Word
  b : Option Word
  left : Nat
  deriving DecidableEq, Repr

/-- What the response channel carried in the last step (R52): nothing (`ready` low or no request), the end of a
write, or the word of a read. DESIGN CHOICE (log entry 7): the model keeps it as a field. -/
inductive Response where
  | none
  | done
  | data (w : Word)
  deriving DecidableEq, Repr

/-- The block's state, and the outside's next actions.

`BUSY` is not stored: it is 1 exactly while a command is in flight (R24, R25, R30; DESIGN CHOICE of form, log entry 13). -/
structure State where
  /-- `F0`..`F7` (R20). -/
  f : Vector Word 8
  /-- Which value registers have been written since reset (R33, R260). No outcome depends on it. DESIGN CHOICE
  (log entry 2): the model's own field. -/
  written : Vector Bool 8
  /-- `CMDR`, the last command word the host wrote (R28). -/
  cmdr : Word
  /-- `STATUS.ILL` (R24, R26). -/
  ill : Bool
  /-- The in-flight command (R30). -/
  inflight : Option InFlight
  /-- The response channel (R52). -/
  resp : Response
  /-- What the host and the reset pin do next, oldest first (R47, R52, R260). DESIGN CHOICE (log entry 3):
  the model's own field. -/
  input : List Input
  deriving DecidableEq, Repr

/-- Why the machine stops with a fault. -/
inductive Fault where
  /-- A host access of the wrong width or alignment (R44, R242); raised by the step that meets the access.
  SAFE: the block answers `err`, changes no state and goes on, where the model stops, as R44 says a model does (log entry 11). -/
  | busError (off : BitVec 6)
  deriving DecidableEq, Repr

/-- Why an instruction has no meaning. -/
inductive Refusal where
  /-- An instruction of the table without a meaning yet, raised by its arm of `exec`; no arm raises it.
  SAFE: the model stops where the block goes on. -/
  | notModelled (mnemonic : String)
  deriving DecidableEq, Repr

/-- The state after reset (R32, R260): no command in flight, `ILL = 0`, `CMDR = 0`, no register written.
DESIGN CHOICE: the spec leaves `F0`..`F7` unspecified and the model names zero (log entry 1, unsafe). -/
def State.reset : State where
  f := Vector.replicate 8 0
  written := Vector.replicate 8 false
  cmdr := 0x00000000
  ill := false
  inflight := none
  resp := .none
  input := []

end Sys2Proof.Machine
end

