-- ==== Sys2Proof/Machine/Ops.lean ====
section
/-!
DEFINITION. The named operations on the state: the register file, STATUS, accepting and completing a command, an illegal
command word, and reset. The block has no trap entry and no return from one (R247): an illegal command word is its only
exceptional event on the command path, and `illegalCommand` is the one operation for it (R241).
-/

namespace Sys2Proof.Machine

/-- `F[i]` (R12, R20): every register holds a value and none is hardwired (R22). -/
def State.readF (s : State) (i : Reg) : Word := s.f[i.toNat]'(i.isLt)

/-- `F[i] <- v` (R12); the register now counts as written since reset (R33). -/
def State.writeF (s : State) (i : Reg) (v : Word) : State :=
  { s with f := s.f.set i.toNat v i.isLt, written := s.written.set i.toNat true i.isLt }

/-- The register has been written since reset (R33, R260). -/
def State.isWritten (s : State) (i : Reg) : Bool := s.written[i.toNat]'(i.isLt)

/-- `STATUS.BUSY`: a command is in flight (R25, R30). -/
def State.busy (s : State) : Bool := s.inflight.isSome

/-- The word a read of `STATUS` returns: `BUSY` in bit 0, `ILL` in bit 1, zero above (R24). -/
def State.statusWord (s : State) : Word := 0#30 ++ BitVec.ofBool s.ill ++ BitVec.ofBool s.busy

/-- The operand word a command takes from `rs1`. It is read when the command is accepted (R100): of a command in
flight it is the word latched then (R30), and of a command on an idle block the register now (DESIGN CHOICE, log entry 8). -/
def State.srcA (s : State) (rs1 : Reg) : Word :=
  match s.inflight with
  | none => s.readF rs1
  | some c => c.a

/-- The operand word a form-`R` command takes from `rs2`, as `srcA`. A command in flight whose second
operand is absent is of form `U` and never asks for it (R100). -/
def State.srcB (s : State) (rs2 : Reg) : Word :=
  match s.inflight with
  | none => s.readF rs2
  | some c => c.b.getD 0

/-- Accepting a command: the operands are read at once and `BUSY <- 1`, with `LAT(op)` cycles to go (R25, R100). -/
def State.accept (s : State) (i : Instr) : State :=
  { s with inflight := some ⟨i, s.readF i.rs1, i.rs2.map s.readF, Config.lat i.opcode⟩ }

/-- Completing a command: `F[rd] <- v` and `BUSY <- 0`, in one cycle (R25, R100). -/
def State.complete (s : State) (rd : Reg) (v : Word) : State :=
  { s.writeF rd v with inflight := none }

/-- The reaction to an illegal command word: `STATUS.ILL <- 1` and nothing else (R26, R241). -/
def State.illegalCommand (s : State) : State := { s with ill := true }

/-- A write of `CMDR`: the word is stored, then its legality decides (R28, R45, R241, R245). -/
def State.submit (s : State) (c : Word) : State :=
  match decode c with
  | .ok i => State.accept { s with cmdr := c } i
  | .error _ => State.illegalCommand { s with cmdr := c }

/-- A write of `STATUS`: bit 1 clears `ILL`, every other bit is ignored (R24). -/
def State.writeStatus (s : State) (v : Word) : State :=
  { s with ill := s.ill && !(v.getLsbD 1) }

/-- A cycle with `rst = 1`: the state after reset, whatever stood before; the outside's later actions remain (R260). -/
def State.resetCycle (s : State) : State := { State.reset with input := s.input }

/-- The execution of a form-`U` command with result function `f` (R100). -/
def runU (f : Word → Word) (rd rs1 : Reg) (s : State) : Host.Outcome State Fault Refusal :=
  .next (s.complete rd (f (s.srcA rs1)))

/-- The execution of a form-`R` command with result function `f` (R100). -/
def runR (f : Word → Word → Word) (rd rs1 rs2 : Reg) (s : State) : Host.Outcome State Fault Refusal :=
  .next (s.complete rd (f (s.srcA rs1) (s.srcB rs2)))

end Sys2Proof.Machine
end

