-- ==== Sys2Proof/Machine/Params.lean ====
section
/-!
DEFINITION. The parameters whose value the spec gives for this hardware (R6), and the constants of the reference
algorithms (R182, R201, R203, R205). DESIGN CHOICE of form (log entry 12): the values are the spec's, and they stand here
as plain definitions, not as free values.
-/

namespace Sys2Proof.Machine

/-- `P_NEGMIN`: whether negating the most negative magnitude saturates to +Inf (R121). -/
def negMinSaturates : Bool := false

/-- `P_INFSIGN`: the sign rule for infinities produced by `MUL` and `DIV` (R140). -/
def infSign : InfSign := .addStyle

/-- `P_LANES`: the byte-lane order of a byte-addressed host bus (R43). -/
def lanes : Lanes := .little

/-- One in the wide format, whose unit is `2^-28` (00_scope.md glossary). -/
def one28 : Int := 2 ^ 28

/-- The three logarithms share one evaluator (R180, R181). -/
inductive LogOp where
  | ln | log2 | log10
  deriving DecidableEq, Repr

/-- `C_op[n_op]` down to `C_op[1]`, highest first, as Horner's rule takes them (R182). -/
def logCoeffs : LogOp → List Int
  | .ln => [67257744, -136573683, 269509156]
  | .log2 => [97032414, -197034175, 388819522]
  | .log10 => [15105241, -29656800, 39577799, -58313397, 116567681]

/-- `K_op`, the logarithm of 2 in the result's base, in Q.28 (R182). -/
def logOfTwo : LogOp → Int
  | .ln => 186065279
  | .log2 => 268435456
  | .log10 => 80807124

/-- `CORR_op` (R182). -/
def logCorrection : LogOp → Int
  | .ln => 0
  | .log2 => 0
  | .log10 => 0

/-- `QT`, one quarter turn in radians, in Q.28 (R201). -/
def quarterTurn : Int := 421657428

/-- `A` of the polynomial sine (R203). -/
def sinA : Int := 421657428

/-- `B` of the polynomial sine (R203). -/
def sinB : Int := 172226217

/-- `C` of the polynomial sine (R203). -/
def sinC : Int := 19004244

/-- `ATAN[0..23]`, the micro-angles in Q.28 quarter turns (R205). -/
def atanTable : List Int :=
  [134217728, 79233351, 41864727, 21251189, 10666833, 5338616, 2669960, 1335061] ++
  [667541, 333772, 166886, 83443, 41722, 20861, 10430, 5215] ++
  [2608, 1304, 652, 326, 163, 81, 41, 20]

/-- `K`, the seed that removes the CORDIC gain (R205). -/
def cordicSeed : Int := 163008219

end Sys2Proof.Machine
end

