-- ==== Sys2Proof/Machine/Bus.lean ====
section
/-!
DEFINITION. The register window (20_memory.md): which accesses are legal, what each offset names, what an access does,
and the byte lanes a byte-addressed host bus sees.
-/

namespace Sys2Proof.Machine

/-- The only legal access is a 32-bit access whose offset is a multiple of 4 (R44). -/
def accessLegal (a : Access) : Bool := a.size == .bits32 && a.off.extractLsb' 0 2 == 0

/-- What a word of the window is (R41). -/
inductive WindowReg where
  | f (i : Reg)
  | cmdr
  | status
  | reserved
  deriving DecidableEq, Repr

/-- The register map: `F[i]` at `4*i`, `CMDR` at `0x20`, `STATUS` at `0x24`, the rest reserved (R41). An offset names
the word that holds it. -/
def windowReg (off : BitVec 6) : WindowReg :=
  let index := off.extractLsb' 2 4
  if index.msb = false then .f (index.extractLsb' 0 3)
  else if index = 8 then .cmdr
  else if index = 9 then .status
  else .reserved

/-- Accesses to `F[i]` and to `CMDR` are held while `BUSY = 1` (R41, R46). -/
def heldWhileBusy (off : BitVec 6) : Bool :=
  match windowReg off with
  | .f _ => true
  | .cmdr => true
  | .status => false
  | .reserved => false

/-- The word a 32-bit read of the offset returns (R24, R28, R41, R42). -/
def State.windowWord (s : State) (off : BitVec 6) : Word :=
  match windowReg off with
  | .f i => s.readF i
  | .cmdr => s.cmdr
  | .status => s.statusWord
  | .reserved => 0x00000000

/-- What a 32-bit write of the offset does (R24, R42, R45). -/
def State.windowWrite (s : State) (off : BitVec 6) (v : Word) : State :=
  match windowReg off with
  | .f i => s.writeF i v
  | .cmdr => s.submit v
  | .status => s.writeStatus v
  | .reserved => s

/-- A legal access that is not held: its effect and the response (R45, R52). A read changes no register. -/
def State.perform (s : State) (a : Access) : State :=
  match a with
  | .read _ off => { s with resp := .data (s.windowWord off) }
  | .write _ off v => { s.windowWrite off v with resp := .done }

/-- The window offset of an address of the host's physical address space, if it lies in the window (R40). -/
def windowOffset (addr : Nat) : Option (BitVec 6) :=
  if Config.pBase ≤ addr ∧ addr < Config.pBase + 64 then some (BitVec.ofNat 6 (addr - Config.pBase)) else none

/-- The byte address of the lane that holds bits `8k+7 : 8k` of the word at window offset `off` (R43). -/
def laneAddress (order : Lanes) (off : BitVec 6) (k : Fin 4) : Nat :=
  match order with
  | .little => Config.pBase + off.toNat + k
  | .big => Config.pBase + off.toNat + 3 - k

/-- The byte a byte-addressed bus finds at offset `b` of the window, for the lane order of this hardware: lane
`k` of the word that holds the byte (R43). -/
def State.laneByte (s : State) (b : BitVec 6) : Byte :=
  let k := (b.extractLsb' 0 2).toNat
  let k := match lanes with
    | .little => k
    | .big => 3 - k
  (s.windowWord b).extractLsb' (8 * k) 8

end Sys2Proof.Machine
end

