-- ==== Sys2Proof/Machine/Arith.lean ====
section
/-!
DEFINITION. The exact integer arithmetic of the rules: shifts, rounding and bit length (R8 to R11).
Integers are unbounded, as in the pseudocode (R8).
-/

namespace Sys2Proof.Machine

/-- `asr(x, n)`, the floor of `x / 2^n` (R8). -/
def asr (x : Int) (n : Nat) : Int := x / 2 ^ n

/-- `rne(x, n)`: `x / 2^n` rounded to the nearest integer, ties to even (R9). -/
def rne (x : Int) (n : Nat) : Int :=
  match n with
  | 0 => x
  | k + 1 =>
    let q := asr x (k + 1)
    let r := x - q * 2 ^ (k + 1)
    let h : Int := 2 ^ k
    if r > h ∨ (r = h ∧ q % 2 = 1) then q + 1 else q

/-- `rne_div(n, d)` for `d > 0`: the second and third line of R10. -/
def rneDivPos (n d : Int) : Int :=
  let q := n / d
  let r := n - q * d
  if 2 * r > d ∨ (2 * r = d ∧ q % 2 = 1) then q + 1 else q

/-- `rne_div(n, d)` for `d ≠ 0`: the rational `n / d` rounded to the nearest integer, ties to even (R10). -/
def rneDiv (n d : Int) : Int := if d < 0 then rneDivPos (-n) (-d) else rneDivPos n d

/-- `bitlen(x)`: the number of bits of `x` without leading zeros (R11). -/
def bitlen (x : Nat) : Nat := if x = 0 then 0 else Nat.log2 x + 1

end Sys2Proof.Machine
end

