-- ==== Sys2Proof/Machine/Operands.lean ====
section
/-!
DEFINITION. How a value word is read: its class and its magnitude (R60 to R62, R101 to R103).
-/

namespace Sys2Proof.Machine

/-- `cls(w)`, the status field (R60). -/
def statusField (w : Word) : BitVec 2 := w.extractLsb' 0 2

/-- Status `00` (R61, R101). -/
def isNormal (w : Word) : Bool := statusField w == 0b00

/-- Status `01` (R61, R101). -/
def isNaN (w : Word) : Bool := statusField w == 0b01

/-- Status `10` (R61, R101). -/
def isPInf (w : Word) : Bool := statusField w == 0b10

/-- Status `11` (R61, R101). -/
def isNInf (w : Word) : Bool := statusField w == 0b11

/-- Either infinity (R101). -/
def isInf (w : Word) : Bool := isPInf w || isNInf w

/-- A negative Normal value (R101). -/
def isNegN (w : Word) : Bool := isNormal w && w.msb

/-- `mag(w)`, the magnitude field as a signed 30-bit number (R60, R102). -/
def mag (w : Word) : Int := (w.extractLsb' 2 30).toInt

/-- `d(w)`, the magnitude as an arithmetic command reads it: zero unless Normal (R103). -/
def opMag (w : Word) : Int := if isNormal w then mag w else 0

end Sys2Proof.Machine
end

