-- ==== Sys2Proof/Machine/Flags.lean ====
section
/-!
DEFINITION. How a result's class is decided and its word built. The block has no flags register (R29): the class in
the result's status field is all a command reports (R104 to R106, R140, R240).
-/

namespace Sys2Proof.Machine

/-- The canonical NaN word (R104). -/
def nanW : Word := 0x00000001

/-- The canonical +Inf word (R104). -/
def pinfW : Word := 0x00000002

/-- The canonical -Inf word (R104). -/
def ninfW : Word := 0x00000003

/-- The magnitude is representable (R105). -/
def fits (q : Int) : Bool := decide (-2 ^ 29 ≤ q ∧ q ≤ 2 ^ 29 - 1)

/-- The Normal word with magnitude `q` (R105). -/
def normalW (q : Int) : Word := BitVec.ofInt 32 (q * 4)

/-- The result word from the NaN, +Inf and -Inf conditions and the Normal magnitude, in this precedence (R104, R106). -/
def pack (n p g : Bool) (q : Int) : Word :=
  if n then nanW else if p then pinfW else if g then ninfW else normalW q

/-- The sign rule of the extended real line (R140, `sgn`). -/
def extSign (w : Word) : Bool := isNInf w || isNegN w

/-- The common end of `MUL` and `DIV` under a sign rule for infinities (R140). -/
def combineWith (style : InfSign) (a b : Word) (n : Bool) (q : Int) : Word :=
  let ovf := !n && !fits q
  match style with
  | .addStyle =>
    let p := isPInf a || isPInf b || (ovf && decide (q > 0))
    let g := isNInf a || isNInf b || (ovf && decide (q < 0))
    pack n p (g && !p) q
  | .xorSign =>
    let inf := isInf a || isInf b || ovf
    let x := extSign a ^^ extSign b
    pack n (inf && !x) (inf && x) q

/-- The common end of `MUL` and `DIV` on this hardware (R140). -/
def combine (a b : Word) (n : Bool) (q : Int) : Word := combineWith infSign a b n q

end Sys2Proof.Machine
end

