-- ==== Sys2Proof/Machine/CoreArith.lean ====
section
/-!
DEFINITION. Core arithmetic: `NEG`, `ABS`, `ADD`, `SUB` (41_core_arith.md).
-/

namespace Sys2Proof.Machine

/-- `neg(a)` under either value of `P_NEGMIN` (R120, R121). -/
def negWith (saturate : Bool) (a : Word) : Word :=
  if isNaN a then nanW
  else if isPInf a then ninfW
  else if isNInf a then pinfW
  else if mag a = -2 ^ 29 then (if saturate then pinfW else 0x80000000)
  else normalW (-mag a)

/-- `neg(a)` on this hardware (R120). -/
def negW (a : Word) : Word := negWith negMinSaturates a

/-- `abs(a)` under either value of `P_NEGMIN` (R121, R122). -/
def absWith (saturate : Bool) (a : Word) : Word :=
  if isNaN a then nanW
  else if isInf a then pinfW
  else if isNegN a then negWith saturate a
  else a

/-- `abs(a)` on this hardware (R122). -/
def absW (a : Word) : Word := absWith negMinSaturates a

/-- `add(a, b)` (R123). -/
def addW (a b : Word) : Word :=
  let s := opMag a + opMag b
  let p := isPInf a || isPInf b || decide (s > 2 ^ 29 - 1)
  let g := isNInf a || isNInf b || decide (s < -2 ^ 29)
  pack (isNaN a || isNaN b) p (g && !p) s

/-- `sub(a, b)` is `add(a, neg(b))` (R125). -/
def subW (a b : Word) : Word := addW a (negW b)

/-- `NEG Fd, Fs1` (R120). -/
def execNeg (rd rs1 : Reg) (s : State) : Host.Outcome State Fault Refusal := runU negW rd rs1 s

/-- `ABS Fd, Fs1` (R122). -/
def execAbs (rd rs1 : Reg) (s : State) : Host.Outcome State Fault Refusal := runU absW rd rs1 s

/-- `ADD Fd, Fs1, Fs2` (R123). -/
def execAdd (rd rs1 rs2 : Reg) (s : State) : Host.Outcome State Fault Refusal := runR addW rd rs1 rs2 s

/-- `SUB Fd, Fs1, Fs2` (R125). -/
def execSub (rd rs1 rs2 : Reg) (s : State) : Host.Outcome State Fault Refusal := runR subW rd rs1 rs2 s

end Sys2Proof.Machine
end

