-- ==== Sys2Proof/Machine/Exp.lean ====
section
/-!
DEFINITION. The exponential evaluator: `EXP` (44_exp.md).
-/

namespace Sys2Proof.Machine

/-- `term_i` and the sum of the terms `0..i` of the series at `R`, in Q.28 (R171). -/
def expSeries (R : Int) : Nat → Int × Int
  | 0 => (one28, one28)
  | i + 1 =>
    let p := expSeries R i
    let t := rneDiv (p.1 * R) ((i + 1 : Nat) * one28)
    (t, p.2 + t)

/-- The squaring slots: slot `j` of `1..k` squares when `j ≤ s` (R171). -/
def expSquare (s : Nat) : Nat → Int → Int
  | 0, x => x
  | k + 1, x =>
    let y := expSquare s k x
    if k + 1 ≤ s then rne (y * y) 28 else y

/-- The number of halvings, `s` (R171). -/
def expHalvings (m : Int) : Nat := min (bitlen m.natAbs - 15) 4

/-- `exp_ref(m)`: halve, sum 11 terms, run 4 squaring slots, narrow (R171). -/
def expRef (m : Int) : Int :=
  let s := expHalvings m
  let sum := (expSeries (asr (m * 2 ^ 13) s) 10).2
  rne (expSquare s 4 sum) 13

/-- `exp(a)` (R170): `EXP_FN` is `exp_ref` on this hardware. -/
def expW (a : Word) : Word :=
  if isNaN a then nanW
  else if isPInf a then pinfW
  else if isNInf a then 0x00000000
  else if mag a ≥ 2 ^ 19 then pinfW
  else if mag a ≤ -2 ^ 19 then 0x00000000
  else
    let q := expRef (mag a)
    if q > 2 ^ 29 - 1 then pinfW else normalW q

/-- `EXP Fd, Fs1` (R170). -/
def execExp (rd rs1 : Reg) (s : State) : Host.Outcome State Fault Refusal := runU expW rd rs1 s

end Sys2Proof.Machine
end

