-- ==== Sys2Proof/Machine/Log.lean ====
section
/-!
DEFINITION. The logarithms: `LN`, `LOG2`, `LOG10` (45_log.md).
-/

namespace Sys2Proof.Machine

/-- Horner's rule in Q.28 from the accumulator `acc`, the remaining coefficients highest first; every product is
rounded to nearest-even (R181). -/
def horner (M : Int) (acc : Int) : List Int → Int
  | [] => acc
  | c :: cs => horner M (rne (acc * M) 28 + c) cs

/-- The polynomial value at `M`, with constant term 0: `P` of R181. -/
def logPoly (M : Int) : List Int → Int
  | [] => 0
  | c :: cs => rne (horner M c cs * M) 28

/-- `e` of R181: the integer log2 of `m`, plus its second-highest bit. -/
def logExponent (m : Nat) : Nat :=
  let k := bitlen m - 1
  k + (if k ≥ 1 ∧ m.testBit (k - 1) then 1 else 0)

/-- `M` of R181: the mantissa `m / 2^e` less 1, in Q.28. -/
def logMantissa (m : Nat) : Int := rne ((m : Int) * 2 ^ 28) (logExponent m) - one28

/-- `log_ref(m, op)` for `1 ≤ m` (R181). -/
def logRef (op : LogOp) (m : Nat) : Int :=
  let P := logPoly (logMantissa m) (logCoeffs op)
  let E : Int := (logExponent m : Int) - 15
  rne (P + E * logOfTwo op) 13 + logCorrection op

/-- `log_op(a)` (R180): `OP_FN` is `log_ref` on this hardware. -/
def logW (op : LogOp) (a : Word) : Word :=
  if isNaN a then nanW
  else if isNegN a then nanW
  else if isNInf a then ninfW
  else if isPInf a then pinfW
  else if mag a = 0 then ninfW
  else normalW (logRef op (mag a).toNat)

/-- `LN Fd, Fs1` (R183). -/
def execLn (rd rs1 : Reg) (s : State) : Host.Outcome State Fault Refusal := runU (logW .ln) rd rs1 s

/-- `LOG2 Fd, Fs1` (R184). -/
def execLog2 (rd rs1 : Reg) (s : State) : Host.Outcome State Fault Refusal := runU (logW .log2) rd rs1 s

/-- `LOG10 Fd, Fs1` (R185). -/
def execLog10 (rd rs1 : Reg) (s : State) : Host.Outcome State Fault Refusal := runU (logW .log10) rd rs1 s

end Sys2Proof.Machine
end

