-- ==== Sys2Proof/Machine/MulDiv.lean ====
section
/-!
DEFINITION. Multiplicative arithmetic: `MUL`, `DIV` (42_muldiv.md).
-/

namespace Sys2Proof.Machine

/-- `mul(a, b)`: the exact product, rounded once, then combined (R141). -/
def mulW (a b : Word) : Word :=
  combine a b (isNaN a || isNaN b) (rne (opMag a * opMag b) 15)

/-- `div(a, b)`: NaN for a zero-valued divisor, else the exact quotient rounded once, then combined (R142). -/
def divW (a b : Word) : Word :=
  let n := isNaN a || isNaN b || decide (opMag b = 0)
  combine a b n (if n then 0 else rneDiv (opMag a * 2 ^ 15) (opMag b))

/-- `MUL Fd, Fs1, Fs2` (R141). -/
def execMul (rd rs1 rs2 : Reg) (s : State) : Host.Outcome State Fault Refusal := runR mulW rd rs1 rs2 s

/-- `DIV Fd, Fs1, Fs2` (R142). -/
def execDiv (rd rs1 rs2 : Reg) (s : State) : Host.Outcome State Fault Refusal := runR divW rd rs1 rs2 s

end Sys2Proof.Machine
end

