-- ==== Sys2Proof/Machine/Sqrt.lean ====
section
/-!
DEFINITION. The square-root engine: `SQRT` (43_sqrt.md).
-/

namespace Sys2Proof.Machine

/-- `k` Newton-Raphson steps towards the root of `N` from `x`, keeping the smaller estimate, with the
denominator guarded against 0 (R161). -/
def newton (N : Nat) : Nat → Nat → Nat
  | 0, x => x
  | k + 1, x => newton N k (min x ((x + N / max x 1) / 2))

/-- `sqrt_ref(m)`: the seed, exactly 8 steps, and the final round to nearest (R161). -/
def sqrtRef (m : Nat) : Nat :=
  let N := m * 2 ^ 15
  let x := newton N 8 (2 ^ ((bitlen N + 1) / 2))
  if N - x * x > x then x + 1 else x

/-- `sqrt(a)` (R160): `SQRT_FN` is `sqrt_ref` on this hardware. -/
def sqrtW (a : Word) : Word :=
  if isNaN a || isNInf a || isNegN a then nanW
  else if isPInf a then pinfW
  else normalW (sqrtRef (mag a).toNat)

/-- `SQRT Fd, Fs1` (R160). -/
def execSqrt (rd rs1 : Reg) (s : State) : Host.Outcome State Fault Refusal := runU sqrtW rd rs1 s

end Sys2Proof.Machine
end

