-- ==== Sys2Proof/Machine/Trig.lean ====
section
/-!
DEFINITION. Trigonometry: the circle fraction, the polynomial sine and the CORDIC unit: `CFRAC`, `SIN`, `SINC`, `COSC`,
`TANC` (46_trig.md). Angles are in Q.28 quarter turns.
-/

namespace Sys2Proof.Machine

/-- `cf(m)`, the circle fraction of `m` units of `2^-15` radian, in `[0, 2^30)` (R201). -/
def circleFraction (m : Int) : Int := m * 2 ^ 41 / quarterTurn % 2 ^ 30

/-- `red(u)`, the sine reduction to `[-2^28, 2^28]` (R202). -/
def sineReduce (u : Int) : Int :=
  if u < 2 ^ 28 then u
  else if u < 3 * 2 ^ 28 then 2 ^ 28 * 2 - u
  else u - 2 ^ 30

/-- `sin_poly(z)` (R203). -/
def sinPoly (z : Int) : Int :=
  let z2 := rne (z * z) 28
  let t := sinB - rne (sinC * z2) 28
  let t := sinA - rne (z2 * t) 28
  rne (z * t) 28

/-- The CORDIC vector and angle accumulator (R206). -/
structure Rotation where
  x : Int
  y : Int
  t : Int
  deriving DecidableEq, Repr

/-- Iteration `i` with micro-angle `angle`: the three updates use the values from before it (R206). -/
def Rotation.turn (r : Rotation) (i : Nat) (angle : Int) : Rotation :=
  if r.t ≥ 0 then ⟨r.x - asr r.y i, r.y + asr r.x i, r.t - angle⟩
  else ⟨r.x + asr r.y i, r.y - asr r.x i, r.t + angle⟩

/-- The iterations from number `i` on, one per micro-angle of the list (R206). -/
def cordicFrom (i : Nat) (r : Rotation) : List Int → Rotation
  | [] => r
  | angle :: rest => cordicFrom (i + 1) (r.turn i angle) rest

/-- `cordic(θ)`: the seeded vector turned through the 24 micro-angles (R205, R206). -/
def cordic (θ : Int) : Rotation := cordicFrom 0 ⟨cordicSeed, 0, θ⟩ atanTable

/-- `SIN_FN(m)` (R204). -/
def sinFn (m : Int) : Int := rne (sinPoly (sineReduce (circleFraction m))) 13

/-- `SINC_FN(m)` (R207). -/
def sincFn (m : Int) : Int := rne (cordic (sineReduce (circleFraction m))).y 13

/-- `COSC_FN(m)`: the angle advanced by one quarter turn (R208). -/
def coscFn (m : Int) : Int :=
  rne (cordic (sineReduce ((circleFraction m + 2 ^ 28) % 2 ^ 30))).y 13

/-- A tangent: an integer in units of `2^-15`, or one of the markers `+∞`, `-∞` (R200). -/
inductive Tangent where
  | posInf
  | negInf
  | finite (q : Int)
  deriving DecidableEq, Repr

/-- The infinity signed by the sine component, `+∞` when it is not negative (R209). -/
def signedInf (sN : Int) : Tangent := if sN < 0 then .negInf else .posInf

/-- The reduction of a circle fraction to half a turn about 0 (R209, the first two lines). -/
def tanReduce (u : Int) : Int :=
  let t := u % 2 ^ 29
  if t ≥ 2 ^ 28 then t - 2 ^ 29 else t

/-- The division of the sine by the cosine component (R209). -/
def tanDivide (sN cN : Int) : Tangent :=
  if cN = 0 then signedInf sN
  else
    let q := rneDiv (sN * 2 ^ 15) cN
    if fits q then .finite q else signedInf sN

/-- `TANC_FN(m)` (R209). -/
def tancFn (m : Int) : Tangent :=
  let r := cordic (tanReduce (circleFraction m))
  tanDivide (rne r.y 13) (rne r.x 13)

/-- A tangent as a value word (R200). -/
def Tangent.word : Tangent → Word
  | .posInf => pinfW
  | .negInf => ninfW
  | .finite q => normalW q

/-- `trig_op(a)` for a result function that always gives an integer (R200). -/
def trigW (fn : Int → Int) (a : Word) : Word :=
  if isNaN a || isInf a then nanW else normalW (fn (mag a))

/-- `trig_op(a)` for `TANC` (R200). -/
def tancW (a : Word) : Word :=
  if isNaN a || isInf a then nanW else (tancFn (mag a)).word

/-- `cfrac(a)`, a raw word; a non-Normal operand reads 0 (R201). -/
def cfracW (a : Word) : Word := BitVec.ofInt 32 (circleFraction (opMag a))

/-- `SIN Fd, Fs1` (R204). -/
def execSin (rd rs1 : Reg) (s : State) : Host.Outcome State Fault Refusal := runU (trigW sinFn) rd rs1 s

/-- `SINC Fd, Fs1` (R207). -/
def execSinc (rd rs1 : Reg) (s : State) : Host.Outcome State Fault Refusal := runU (trigW sincFn) rd rs1 s

/-- `COSC Fd, Fs1` (R208). -/
def execCosc (rd rs1 : Reg) (s : State) : Host.Outcome State Fault Refusal := runU (trigW coscFn) rd rs1 s

/-- `TANC Fd, Fs1` (R209). -/
def execTanc (rd rs1 : Reg) (s : State) : Host.Outcome State Fault Refusal := runU tancW rd rs1 s

/-- `CFRAC Fd, Fs1` (R201). -/
def execCfrac (rd rs1 : Reg) (s : State) : Host.Outcome State Fault Refusal := runU cfracW rd rs1 s

end Sys2Proof.Machine
end

