-- ==== Sys2Proof/Machine/ValueOps.lean ====
section
/-!
DEFINITION. Value operations on bits: `FROMINT`, `DATA`, `CLASS`, `MKVAL` (40_value_ops.md).
-/

namespace Sys2Proof.Machine

/-- `FROMINT`: the operand is a raw integer, moved to the fractional position modulo `2^32` (R107). -/
def fromIntW (a : Word) : Word := BitVec.ofInt 32 (a.toInt * 2 ^ 17)

/-- `DATA`: the status field cleared (R108). -/
def dataW (a : Word) : Word := a &&& 0xFFFFFFFC

/-- `CLASS`: the Normal test, the raw sign bit, and the -Inf, +Inf and NaN tests, in bits 4 to 0 (R109). -/
def classW (a : Word) : Word :=
  0#27 ++ BitVec.ofBool (isNormal a) ++ BitVec.ofBool a.msb ++ BitVec.ofBool (isNInf a)
    ++ BitVec.ofBool (isPInf a) ++ BitVec.ofBool (isNaN a)

/-- `MKVAL`: magnitude bits of the first operand, status of the second (R110). -/
def mkvalW (a b : Word) : Word := (a &&& 0xFFFFFFFC) ||| (b &&& 0x00000003)

/-- `FROMINT Fd, Fs1` (R107). -/
def execFromint (rd rs1 : Reg) (s : State) : Host.Outcome State Fault Refusal := runU fromIntW rd rs1 s

/-- `DATA Fd, Fs1` (R108). -/
def execData (rd rs1 : Reg) (s : State) : Host.Outcome State Fault Refusal := runU dataW rd rs1 s

/-- `CLASS Fd, Fs1` (R109). -/
def execClass (rd rs1 : Reg) (s : State) : Host.Outcome State Fault Refusal := runU classW rd rs1 s

/-- `MKVAL Fd, Fs1, Fs2` (R110). -/
def execMkval (rd rs1 rs2 : Reg) (s : State) : Host.Outcome State Fault Refusal := runR mkvalW rd rs1 rs2 s

end Sys2Proof.Machine
end

