-- ==== Sys2Proof/Machine/Dispatch.lean ====
section
/-!
DEFINITION. The meaning of each command, one arm per row of the opcode table. `exec i s` is the whole effect of R100's
`accept(c)`, from reading the operands to the write of `F[rd]` and `BUSY <- 0`.
-/

namespace Sys2Proof.Machine

def exec (i : Instr) (s : State) : Host.Outcome State Fault Refusal :=
  match i with
  | .neg rd rs1 => Sys2Proof.Machine.execNeg rd rs1 s
  | .abs rd rs1 => Sys2Proof.Machine.execAbs rd rs1 s
  | .add rd rs1 rs2 => Sys2Proof.Machine.execAdd rd rs1 rs2 s
  | .sub rd rs1 rs2 => Sys2Proof.Machine.execSub rd rs1 rs2 s
  | .mul rd rs1 rs2 => Sys2Proof.Machine.execMul rd rs1 rs2 s
  | .div rd rs1 rs2 => Sys2Proof.Machine.execDiv rd rs1 rs2 s
  | .sqrt rd rs1 => Sys2Proof.Machine.execSqrt rd rs1 s
  | .exp rd rs1 => Sys2Proof.Machine.execExp rd rs1 s
  | .ln rd rs1 => Sys2Proof.Machine.execLn rd rs1 s
  | .log2 rd rs1 => Sys2Proof.Machine.execLog2 rd rs1 s
  | .log10 rd rs1 => Sys2Proof.Machine.execLog10 rd rs1 s
  | .sin rd rs1 => Sys2Proof.Machine.execSin rd rs1 s
  | .sinc rd rs1 => Sys2Proof.Machine.execSinc rd rs1 s
  | .cosc rd rs1 => Sys2Proof.Machine.execCosc rd rs1 s
  | .tanc rd rs1 => Sys2Proof.Machine.execTanc rd rs1 s
  | .cfrac rd rs1 => Sys2Proof.Machine.execCfrac rd rs1 s
  | .fromint rd rs1 => Sys2Proof.Machine.execFromint rd rs1 s
  | .data rd rs1 => Sys2Proof.Machine.execData rd rs1 s
  | .cls rd rs1 => Sys2Proof.Machine.execClass rd rs1 s
  | .mkval rd rs1 rs2 => Sys2Proof.Machine.execMkval rd rs1 rs2 s

end Sys2Proof.Machine
end

