-- ==== Sys2Proof/Machine/Cycle.lean ====
section
/-!
DEFINITION. One step of the block: which of a reset cycle, a clock cycle, a completion and a host access it is (R25, R45,
R46, R100, R245, R260), and how a command word is placed so that the next step runs it.

A step is one clock cycle, but for one case: while a command is in flight and nothing the host does can be served before it
completes (its next access is held, R46, or it does nothing more), the step is the completion itself, and the cycles it waits
pass in it. Nothing is observable in those cycles (R30, R268). DEDUCED (log entry 4).
-/

namespace Sys2Proof.Machine

/-- The in-flight command completes: its execution on the operand words latched at acceptance (R100). -/
def completeInFlight (s : State) : Host.Outcome State Fault Refusal :=
  match s.inflight with
  | none => .next s
  | some c => exec c.instr s

/-- One clock cycle for the in-flight command: it completes `LAT(op)` cycles after its acceptance (R25, R268). -/
def tick (s : State) : Host.Outcome State Fault Refusal :=
  match s.inflight with
  | none => .next s
  | some c =>
    if c.left ≤ 1 then completeInFlight s
    else .next { s with inflight := some { c with left := c.left - 1 } }

/-- The access in the cycle, after the in-flight command's own progress in it (R25, R45; DEDUCED, log entry 6). -/
def tickThenPerform (a : Access) (s : State) : Host.Outcome State Fault Refusal :=
  match tick s with
  | .next t => .next (t.perform a)
  | .fault r => .fault r
  | .refused r => .refused r

/-- A host access: width and alignment first, then the hold, then the effect (R245). `rest` is what comes after it. -/
def serve (a : Access) (rest : List Input) (s : State) : Host.Outcome State Fault Refusal :=
  if !accessLegal a then .fault (.busError a.off)
  else if s.busy && heldWhileBusy a.off then completeInFlight { s with resp := .none }
  else tickThenPerform a { s with input := rest, resp := .none }

/-- One step of the block. -/
def cycle (s : State) : Host.Outcome State Fault Refusal :=
  match s.input with
  | [] => completeInFlight { s with resp := .none }
  | .rst :: rest => .next (State.resetCycle { s with input := rest })
  | .idle :: rest => tick { s with input := rest, resp := .none }
  | .access a :: rest => serve a rest s

/-- The block just after a host's write of the command word `w` to `CMDR` on an idle block, with nothing to follow: a legal
word is in flight, its operands latched, and an illegal one has still to be written.
DESIGN CHOICE (log entry 9). -/
def placeCommand (s : State) (w : Word) : State :=
  let s := { s with inflight := none }
  match decode w with
  | .ok _ => { s.submit w with input := [], resp := .done }
  | .error _ => { s with input := [.access (.write .bits32 0x20 w)] }

end Sys2Proof.Machine
end

