-- ==== Sys2Proof/Machine/Script.lean ====
section
/-!
DEFINITION. The host's scripts and the assembler's text form (R73 to R75): the notation of the host's side, not state of
the block.
-/

namespace Sys2Proof.Machine

/-- `WR Fi, v`: `HostWrite(4*i, v)` (R75). -/
def scriptWR (i : Reg) (v : Word) : Input := .access (.write .bits32 (0#1 ++ i ++ 0#2) v)

/-- `RD Fi`: `HostRead(4*i)` (R75). -/
def scriptRD (i : Reg) : Input := .access (.read .bits32 (0#1 ++ i ++ 0#2))

/-- `CMD <command>`: `HostWrite(0x20, encoding)` (R75). -/
def scriptCMD (i : Instr) : Input := .access (.write .bits32 0x20 (encode i))

/-- `RDS`: `HostRead(0x24)` (R75). -/
def scriptRDS : Input := .access (.read .bits32 0x24)

/-- `CLR`: `HostWrite(0x24, 0x00000002)` (R75). -/
def scriptCLR : Input := .access (.write .bits32 0x24 0x00000002)

/-- The pseudo-instruction `MOV Fd, Fs`, which assembles to `MKVAL Fd, Fs, Fs` (R74). -/
def movInstr (rd rs : Reg) : Instr := .mkval rd rs rs

/-- The mnemonic of an opcode (R68). -/
def mnemonicOf : Opcode → String
  | .neg => "NEG" | .abs => "ABS" | .add => "ADD" | .sub => "SUB" | .mul => "MUL" | .div => "DIV"
  | .sqrt => "SQRT" | .exp => "EXP" | .ln => "LN" | .log2 => "LOG2" | .log10 => "LOG10"
  | .sin => "SIN" | .sinc => "SINC" | .cosc => "COSC" | .tanc => "TANC" | .cfrac => "CFRAC"
  | .fromint => "FROMINT" | .data => "DATA" | .cls => "CLASS" | .mkval => "MKVAL"

/-- The assembler's name of a register (R73). -/
def regName (r : Reg) : String := "F" ++ toString r.toNat

/-- The assembler's text of a command: the mnemonic, then the registers separated by commas (R73). -/
def assemblerText (i : Instr) : String :=
  mnemonicOf i.opcode ++ " " ++ regName i.rd ++ ", " ++ regName i.rs1 ++
    (match i.rs2 with
     | none => ""
     | some r => ", " ++ regName r)

end Sys2Proof.Machine
end

