-- ==== Sys2Proof/Safety.lean ====
section
/-!
DEFINITION. What claims call a consistent state and a safe run.
-/

namespace Sys2Proof.Machine

/-- `k` steps, stopping at the first that does not answer a next state. -/
def run : Nat → State → Host.Outcome State Fault Refusal
  | 0, s => .next s
  | k + 1, s =>
    match step s with
    | .next t => run k t
    | .fault r => .fault r
    | .refused r => .refused r

/-- The in-flight command is the one `CMDR` holds, its latched operands are what its source registers hold, and
between 1 and `LAT(op)` cycles are left (R25, R28, R30, R46, R100). -/
def State.Inv (s : State) : Prop :=
  ∀ c, s.inflight = some c →
    decode s.cmdr = .ok c.instr ∧
    c.a = s.readF c.instr.rs1 ∧
    c.b = c.instr.rs2.map s.readF ∧
    1 ≤ c.left ∧ c.left ≤ Config.lat c.instr.opcode

/-- The source registers of a command. -/
def sourceRegs (i : Instr) : List Reg := i.rs1 :: i.rs2.toList

/-- The value registers the next step reads (R45, R100): of a host's read of `F[i]` that is performed, `F[i]`; of a command
word that is accepted, its operands. A completion reads none: its operands were latched. -/
def State.readsNext (s : State) : List Reg :=
  match s.input with
  | .access a :: _ =>
    if !accessLegal a || (s.busy && heldWhileBusy a.off) then []
    else
      match a with
      | .read _ off =>
        match windowReg off with
        | .f i => [i]
        | .cmdr => []
        | .status => []
        | .reserved => []
      | .write _ off w =>
        match windowReg off with
        | .cmdr =>
          match decode w with
          | .ok i => sourceRegs i
          | .error _ => []
        | .f _ => []
        | .status => []
        | .reserved => []
  | [] => []
  | .rst :: _ => []
  | .idle :: _ => []

/-- The next step reads no register that has not been written since reset: where this is false, the spec's model stops
with `UninitRead` (R33, R100). -/
def State.safeNext (s : State) : Bool := s.readsNext.all s.isWritten

/-- Two states that differ at most in the contents of registers not written since reset (R33). -/
def State.agreeOnWritten (s t : State) : Prop :=
  s.written = t.written ∧ s.cmdr = t.cmdr ∧ s.ill = t.ill ∧ s.inflight = t.inflight ∧ s.resp = t.resp ∧
    s.input = t.input ∧ ∀ i, s.isWritten i = true → s.readF i = t.readF i

end Sys2Proof.Machine
end

