-- ==== Sys2Proof/Certificates/Slice0/Obligations.lean ====
section
/-!
DEFINITION. The statements about the block, each from the spec's numbered rules. "The operand" of a command is
`srcA`/`srcB`: the register on an idle block, the word latched at acceptance of a command in flight (R100; statement
`OperandsOfCommand`, log entry 8). What a command leaves alone is said once, for all of them, by `CommandCompletes`.
-/

namespace Sys2Proof.Claims

open Sys2Proof.Machine

/-- The commands of the NaN rule: all but the bit operations (R244, conflict C4). -/
def propagatesNaN (i : Instr) : Bool :=
  match i.opcode with
  | .fromint => false | .data => false | .cls => false | .mkval => false | .cfrac => false
  | .neg => true | .abs => true | .add => true | .sub => true | .mul => true | .div => true
  | .sqrt => true | .exp => true | .ln => true | .log2 => true | .log10 => true
  | .sin => true | .sinc => true | .cosc => true | .tanc => true

/-- The commands that read an operand's magnitude as `d(w)` (R103, R201). -/
def readsMagnitude (i : Instr) : Bool := propagatesNaN i || i.opcode == .cfrac

/-- Two words that differ at most in the magnitude bits of a NaN or an infinity (R103). -/
def sameReading (x y : Word) : Prop := statusField x = statusField y ∧ (isNormal x = true → x = y)

/-- The result is the Normal word of magnitude `q` (R60, R62). -/
def isValue (r : Word) (q : Int) : Prop := isNormal r = true ∧ mag r = q

/-- The result of a sum, product or quotient `q` from the NaN, +Inf and -Inf conditions on the operands: NaN first, then
+Inf, then -Inf, then Normal (R104, R106, R244); a magnitude out of range is the infinity of its sign (R123, R140). -/
def classed (nan pinf ninf : Bool) (q : Int) (r : Word) : Prop :=
  if nan = true then r = 0x00000001
  else if pinf = true ∨ q > 2 ^ 29 - 1 then r = 0x00000002
  else if ninf = true ∨ q < -2 ^ 29 then r = 0x00000003
  else isValue r q

/-- The result of a logarithm with result function `fn` (R180). -/
def logSpec (fn : Nat → Int) (x r : Word) : Prop :=
  if isNaN x = true ∨ isNegN x = true then r = 0x00000001
  else if isNInf x = true then r = 0x00000003
  else if isPInf x = true then r = 0x00000002
  else if mag x = 0 then r = 0x00000003
  else r = BitVec.ofInt 32 (4 * fn (mag x).toNat)

/-- The result of a sine or cosine with result function `fn` (R200). -/
def trigSpec (fn : Int → Int) (x r : Word) : Prop :=
  if isNaN x = true ∨ isInf x = true then r = 0x00000001 else isValue r (fn (mag x))

/-- The infinity signed by the sine component (R209). -/
def signedInfSpec (sN : Int) (r : Word) : Prop := if sN < 0 then r = 0x00000003 else r = 0x00000002

/-- The division that ends a tangent (R209). -/
def tanSpec (sN cN : Int) (r : Word) : Prop :=
  if cN = 0 then signedInfSpec sN r
  else if -2 ^ 29 ≤ rneDiv (sN * 2 ^ 15) cN ∧ rneDiv (sN * 2 ^ 15) cN ≤ 2 ^ 29 - 1 then
    isValue r (rneDiv (sN * 2 ^ 15) cN)
  else signedInfSpec sN r

/-- The host's next action is a 32-bit write of the word `v` at the offset `off`. -/
def nextWrite (s : State) (off : BitVec 6) (v : Word) (rest : List Input) : Prop :=
  s.input = .access (.write .bits32 off v) :: rest

/-- The host's next action is a 32-bit read at the offset `off`. -/
def nextRead (s : State) (off : BitVec 6) (rest : List Input) : Prop :=
  s.input = .access (.read .bits32 off) :: rest

end Sys2Proof.Claims

open Sys2Proof Sys2Proof.Machine Sys2Proof.Claims

/-! ### Encoding -/

/-- Decoding an encoded command gives the command back, for every command and every operand (R65, R66, R67). -/
def Obligations.DecodeOfEncode : Prop := ∀ i : Instr, decode (encode i) = .ok i

/-- A legal word is the encoding of the command it decodes to: no bit of it is dropped (R65 to R70). -/
def Obligations.EncodeOfDecode : Prop := ∀ (c : Word) (i : Instr), decode c = .ok i → encode i = c

/-- R69, R71, and the two descriptions of a legal word in R70: exactly one row of the opcode map selects it, and none of
the three clauses holds. Opcodes 3 to 6 and 0x14 are those of form `R`. -/
def Obligations.LegalWords : Prop :=
  ∀ c : Word,
    (legal c = true ↔ (opcodeMap.filter fun r => r.selects c).length = 1) ∧
    (legal c = false ↔
      (c.extractLsb' 0 6 = 0x00 ∨ 0x15 ≤ (c.extractLsb' 0 6).toNat) ∨ c.extractLsb' 15 17 ≠ 0 ∨
      ((c.extractLsb' 0 6).toNat ∉ [0x03, 0x04, 0x05, 0x06, 0x14] ∧ c.extractLsb' 12 3 ≠ 0))

/-- A row of the opcode map selects a command's word exactly when it is the command's own row (R68). -/
def Obligations.OwnRowSelects : Prop :=
  ∀ (i : Instr) (r : OpcodeRow), r ∈ opcodeMap → (r.selects (encode i) = true ↔ r.op = i.opcode)

/-- A few words of 95_test_vectors.md 3.1 and 3.2 decode as printed there. -/
def Obligations.SampleWords : Prop :=
  decode 0x00000281 = .ok (.neg 2 1) ∧ decode 0x000022C3 = .ok (.add 3 1 2) ∧
  decode 0x000022C6 = .ok (.div 3 1 2) ∧ decode 0x0000028B = .ok (.log10 2 1) ∧
  decode 0x0000028F = .ok (.tanc 2 1) ∧ decode 0x00005B14 = .ok (movInstr 4 5) ∧
  decode 0x00000000 = .error .reservedOpcode ∧ decode 0x00000015 = .error .reservedOpcode ∧
  decode 0x000122C3 = .error .reservedBits ∧ decode 0x00001241 = .error .secondSourceInFormU

/-! ### Steps -/

/-- A legal command word written to `CMDR` of an idle block is accepted: stored, its operands read, `BUSY` set, with
`LAT(op)` cycles to go, and nothing else changed (R25, R28, R45, R100). -/
def Obligations.StepAcceptsLegalWord : Prop :=
  ∀ (s : State) (w : Word) (i : Instr) (rest : List Input),
    s.inflight = none → nextWrite s 0x20 w rest → decode w = .ok i →
    step s = .next { s with
      cmdr := w
      inflight := some ⟨i, s.readF i.rs1, i.rs2.map s.readF, Config.lat i.opcode⟩
      input := rest
      resp := .done }

/-- An illegal command word written to `CMDR` of an idle block is stored and sets `ILL`; no register is written, `BUSY`
stays 0 and the write completes normally (R241). -/
def Obligations.IllegalCommandSetsIll : Prop :=
  ∀ (s : State) (w : Word) (rest : List Input),
    s.inflight = none → nextWrite s 0x20 w rest → legal w = false →
    step s = .next { s with cmdr := w, ill := true, input := rest, resp := .done }

/-- The life of a command while the host is idle: for `LAT(op)` cycles it is in flight and no register changes, and then
the block is in the state its execution gives on the operands as they stood at acceptance. `LAT` is the
uninterpreted parameter and depends on the opcode alone (R25, R100, R263, R268; log entry 5). -/
def Obligations.CommandLifecycle : Prop :=
  ∀ (s : State) (w : Word) (i : Instr) (n : Nat) (rest : List Input),
    s.inflight = none → decode w = .ok i → nextWrite s 0x20 w (List.replicate n .idle ++ rest) →
    (n < Config.lat i.opcode → ∃ t, run (n + 1) s = .next t ∧ t.busy = true ∧
      t.inflight = some ⟨i, s.readF i.rs1, i.rs2.map s.readF, Config.lat i.opcode - n⟩ ∧
      (∀ r, t.readF r = s.readF r ∧ t.isWritten r = s.isWritten r) ∧
      t.cmdr = w ∧ t.ill = s.ill ∧ t.input = rest) ∧
    (n = Config.lat i.opcode →
      run (n + 1) s = exec i { s with cmdr := w, input := rest, resp := .none })

/-- A command is one atomic step as far as the host can tell: the write of its word and the step after it (the host's
next access is held, or there is none) give the state of executing it (R46, R100, R268). That the wait passes in
one step is the model's reading (log entry 4). -/
def Obligations.CommandIsAtomic : Prop :=
  ∀ (s : State) (w : Word) (i : Instr) (rest : List Input),
    s.inflight = none → decode w = .ok i → nextWrite s 0x20 w rest →
    (rest = [] ∨ ∃ a tl, rest = .access a :: tl ∧ accessLegal a = true ∧ heldWhileBusy a.off = true) →
    run 2 s = exec i { s with cmdr := w, input := rest, resp := .none }

/-- A step runs the decoded command: from the state `withFetchWord` makes, the next step is its execution on the
registers; and that state is the one a host's write of the word to an idle block leads to (log entry 9). -/
def Obligations.PlacedCommandRuns : Prop :=
  ∀ (s : State) (w : Nat) (i : Instr), w < 2 ^ 32 → decode (BitVec.ofNat 32 w) = .ok i →
    decodeTableWord 32 w = some i ∧
    step (s.withFetchWord 32 w) =
      exec i { s with inflight := none, cmdr := BitVec.ofNat 32 w, input := [], resp := .none } ∧
    step { s with inflight := none, input := [.access (.write .bits32 0x20 (BitVec.ofNat 32 w))] } =
      .next (s.withFetchWord 32 w)

/-- While a command is in flight an access to `F[i]` or `CMDR` waits; the command completes, and then the access is
performed, so it never sees stale data. `F[i]` and `CMDR` are the words at offsets up to `0x20` (R41, R46).
That the wait passes in one step is the model's reading (log entry 4). -/
def Obligations.HeldAccess : Prop :=
  (∀ off : BitVec 6, off.toNat % 4 = 0 → (heldWhileBusy off = true ↔ off.toNat ≤ 0x20)) ∧
  ∀ (s : State) (c : InFlight) (a : Access) (rest : List Input),
    s.inflight = some c → s.input = .access a :: rest → accessLegal a = true → heldWhileBusy a.off = true →
    ∃ t, exec c.instr { s with resp := .none } = .next t ∧ t.busy = false ∧ t.input = s.input ∧
      step s = .next t ∧ run 2 s = .next (State.perform { t with input := rest } a)

/-- An access to `STATUS` or a reserved offset is not held: it is performed in the cycle, after the command's own
progress in it (R25, R46; the order inside the cycle is log entry 6). -/
def Obligations.UnheldAccess : Prop :=
  ∀ (s : State) (c : InFlight) (a : Access) (rest : List Input),
    s.inflight = some c → s.input = .access a :: rest → accessLegal a = true → heldWhileBusy a.off = false →
    (2 ≤ c.left → step s = .next (State.perform
      { s with inflight := some { c with left := c.left - 1 }, input := rest, resp := .none } a)) ∧
    (c.left ≤ 1 → ∃ t, exec c.instr { s with input := rest, resp := .none } = .next t ∧
      step s = .next (t.perform a))

/-- A step faults exactly on an access that is not a 32-bit access at a multiple of 4, whatever the block is doing,
and it is never refused (R44, R242, R245). -/
def Obligations.BusErrorExactly : Prop :=
  (∀ (s : State) (e : Fault), step s = .fault e ↔
    ∃ a rest, s.input = .access a :: rest ∧ (a.size ≠ .bits32 ∨ a.off.toNat % 4 ≠ 0) ∧ e = .busError a.off) ∧
  ∀ (s : State) (e : Refusal), step s ≠ .refused e

/-- A 32-bit aligned read of an idle block returns the register the offset names, 0 for a reserved offset, and changes
nothing (R24, R28, R41, R42, R45). -/
def Obligations.WindowReads : Prop :=
  ∀ (s : State) (off : BitVec 6) (rest : List Input),
    s.inflight = none → nextRead s off rest → off.toNat % 4 = 0 →
    ∃ w, step s = .next { s with input := rest, resp := .data w } ∧
      (∀ i : Reg, off.toNat = 4 * i.toNat → w = s.readF i) ∧
      (off = 0x20 → w = s.cmdr) ∧ (off = 0x24 → w = s.statusWord) ∧ (0x28 ≤ off.toNat → w = 0x00000000)

/-- A 32-bit aligned write of an idle block, but to `CMDR`: it sets the value register, clears `ILL` by bit 1, or is
ignored, and changes nothing else (R24, R41, R42, R45). -/
def Obligations.WindowWrites : Prop :=
  ∀ (s : State) (off : BitVec 6) (v : Word) (rest : List Input),
    s.inflight = none → nextWrite s off v rest → off.toNat % 4 = 0 →
    (∀ i : Reg, off.toNat = 4 * i.toNat → step s = .next { s.writeF i v with input := rest, resp := .done }) ∧
    (off = 0x24 → step s = .next { s with ill := s.ill && !(v.getLsbD 1), input := rest, resp := .done }) ∧
    (0x28 ≤ off.toNat → step s = .next { s with input := rest, resp := .done })

/-- `STATUS` reads as `BUSY` in bit 0, `ILL` in bit 1, the rest 0; 0 after reset; a write clears `ILL` by bit 1 and does nothing
else, with or without a command in flight (R24). -/
def Obligations.StatusRegister : Prop :=
  State.reset.statusWord = 0x00000000 ∧
  ∀ s : State, s.statusWord.getLsbD 0 = s.inflight.isSome ∧ s.statusWord.getLsbD 1 = s.ill ∧
    (∀ k, 2 ≤ k → s.statusWord.getLsbD k = false) ∧
    s.perform (.read .bits32 0x24) = { s with resp := .data s.statusWord } ∧
    (∀ v : Word, s.perform (.write .bits32 0x24 v) = { s with
      ill := if v.getLsbD 1 = true then false else s.ill
      resp := .done })

/-- What the host writes to a value register it reads back, and another register is as it was: none is hardwired, none
aliases another (R20, R21, R22, R47). -/
def Obligations.HostWriteThenRead : Prop :=
  ∀ (s : State) (i j : Reg) (v : Word) (rest : List Input),
    s.inflight = none → s.input = scriptWR i v :: scriptRD j :: rest →
    ∃ t, run 2 s = .next t ∧ t.resp = .data (if i = j then v else s.readF j) ∧ t.input = rest ∧
      t.cmdr = s.cmdr ∧ t.ill = s.ill ∧ t.inflight = none

/-- A cycle with `rst = 1`: nothing in flight, `ILL` and `CMDR` 0, no register counts as written, the host's requests still
waiting, and no trace of the state before (R260). The contents of `F0`..`F7` are not stated (log entry 1); that a held request stands
after the `rst` events is the model's form (log entry 15). -/
def Obligations.ResetCycle : Prop :=
  ∀ (s : State) (rest : List Input), s.input = .rst :: rest →
    ∃ t, step s = .next t ∧ t.inflight = none ∧ t.ill = false ∧ t.cmdr = 0x00000000 ∧ t.statusWord = 0x00000000 ∧
      (∀ r, t.isWritten r = false) ∧ t.input = rest ∧ ∀ s' : State, s'.input = s.input → step s' = step s

/-- The state after reset, less the contents of `F0`..`F7`, which the spec leaves open (R32, R261; log entry 1). -/
def Obligations.ResetState : Prop :=
  State.reset.inflight = none ∧ State.reset.ill = false ∧ State.reset.cmdr = 0x00000000 ∧
  State.reset.statusWord = 0x00000000 ∧ (∀ r, State.reset.isWritten r = false) ∧ legal State.reset.cmdr = false

/-- With no command in flight and no request, a step changes no state of the block (R252, R261). -/
def Obligations.IdleBlock : Prop :=
  ∀ s : State, s.inflight = none →
    (s.input = [] → step s = .next { s with resp := .none }) ∧
    (∀ rest, s.input = .idle :: rest → step s = .next { s with input := rest, resp := .none })

/-! ### Rules of the whole machine -/

/-- Every step keeps it: what is in flight is the command `CMDR` holds, its latched operands are what its source
registers hold, and between 1 and `LAT(op)` cycles are left (R25, R28, R30, R46, R265). -/
def Obligations.InFlightStaysConsistent : Prop := ∀ s t : State, s.Inv → step s = .next t → t.Inv

/-- The invariant of `InFlightStaysConsistent` holds after reset (R32). -/
def Obligations.ResetIsConsistent : Prop := State.reset.Inv

/-- `ILL` is sticky: only a reset cycle or a write of `STATUS` with bit 1 set clears it, and only an illegal command word
sets it, always, with no other effect than storing the word (R26). -/
def Obligations.IllIsSticky : Prop :=
  ∀ s t : State, step s = .next t →
    (s.ill = true → t.ill = false →
      (∃ rest, s.input = .rst :: rest) ∨ ∃ v rest, nextWrite s 0x24 v rest ∧ v.getLsbD 1 = true) ∧
    (s.ill = false → t.ill = true →
      s.inflight = none ∧ ∃ w rest, nextWrite s 0x20 w rest ∧ legal w = false ∧
        t = { s with cmdr := w, ill := true, input := rest, resp := .done }) ∧
    (s.inflight = none → ∀ w rest, nextWrite s 0x20 w rest → legal w = false → t.ill = true)

/-- `CMDR` changes only in a reset cycle, to 0, or by a write of it on an idle block, to the word written (R28, R50). -/
def Obligations.CmdrChanges : Prop :=
  ∀ s t : State, step s = .next t → t.cmdr ≠ s.cmdr →
    ((∃ rest, s.input = .rst :: rest) ∧ t.cmdr = 0x00000000) ∨
    (s.inflight = none ∧ ∃ w rest, nextWrite s 0x20 w rest ∧ t.cmdr = w)

/-- A value register changes only in a reset cycle, by the host's write of it on an idle block, or as the destination of
the command in flight, when that completes (R22, R100, R265). -/
def Obligations.RegisterChanges : Prop :=
  ∀ (s t : State) (r : Reg), step s = .next t → t.readF r ≠ s.readF r →
    (∃ rest, s.input = .rst :: rest) ∨
    (s.inflight = none ∧ ∃ off v rest, nextWrite s off v rest ∧ off.toNat = 4 * r.toNat ∧ t.readF r = v) ∨
    (∃ c, s.inflight = some c ∧ c.instr.rd = r ∧ t.inflight = none)

/-- The contents of a register not written since reset cannot matter to a step that reads none: two states that differ at
most there step to two such states (R33: "A model must not assume any value"; log entries 1 and 2). -/
def Obligations.UnwrittenRegistersCannotMatter : Prop :=
  ∀ s t : State, s.agreeOnWritten t → s.safeNext = true → ∀ s' : State, step s = .next s' →
    ∃ t', step t = .next t' ∧ s'.agreeOnWritten t'

/-! ### Commands -/

/-- Every command completes, frees the block, and writes `F[rd]` and nothing else (R22, R100, R240). -/
def Obligations.CommandCompletes : Prop :=
  ∀ (i : Instr) (s : State), ∃ t, exec i s = .next t ∧ t.inflight = none ∧ t.isWritten i.rd = true ∧
    (∀ r, r ≠ i.rd → t.readF r = s.readF r ∧ t.isWritten r = s.isWritten r) ∧
    t.cmdr = s.cmdr ∧ t.ill = s.ill ∧ t.resp = s.resp ∧ t.input = s.input

/-- The operand words: the registers on an idle block, the latched words of a command in flight (R30, R66, R100). That one
meaning serves both is the model's form (log entry 8). -/
def Obligations.OperandsOfCommand : Prop :=
  ∀ (s : State) (r : Reg),
    (s.inflight = none → s.srcA r = s.readF r ∧ s.srcB r = s.readF r) ∧
    (∀ c, s.inflight = some c → s.srcA r = c.a ∧ ∀ b, c.b = some b → s.srcB r = b)

/-- The result of a command is a function of its operand words (R13, R100). -/
def Obligations.ResultIsPure : Prop :=
  ∀ (i : Instr) (s t : State), s.srcA i.rs1 = t.srcA i.rs1 → (∀ r, i.rs2 = some r → s.srcB r = t.srcB r) →
    ∃ s' t', exec i s = .next s' ∧ exec i t = .next t' ∧ s'.readF i.rd = t'.readF i.rd

/-- `NEG`: the classes as R120 gives them; a Normal value is negated exactly, but for the most negative, which stays. -/
def Obligations.NegResult : Prop :=
  ∀ (rd rs1 : Reg) (s : State), ∃ t, exec (.neg rd rs1) s = .next t ∧
    (if isNaN (s.srcA rs1) = true then t.readF rd = 0x00000001
     else if isPInf (s.srcA rs1) = true then t.readF rd = 0x00000003
     else if isNInf (s.srcA rs1) = true then t.readF rd = 0x00000002
     else if s.srcA rs1 = 0x80000000 then t.readF rd = 0x80000000
     else isValue (t.readF rd) (-mag (s.srcA rs1)))

/-- `ABS`: either infinity to +Inf, a non-negative Normal word unchanged, a negative one negated, the most negative
unchanged (R122). -/
def Obligations.AbsResult : Prop :=
  ∀ (rd rs1 : Reg) (s : State), ∃ t, exec (.abs rd rs1) s = .next t ∧
    (if isNaN (s.srcA rs1) = true then t.readF rd = 0x00000001
     else if isInf (s.srcA rs1) = true then t.readF rd = 0x00000002
     else if mag (s.srcA rs1) ≥ 0 ∨ s.srcA rs1 = 0x80000000 then t.readF rd = s.srcA rs1
     else isValue (t.readF rd) (-mag (s.srcA rs1)))

/-- `ADD`: the exact sum of the magnitudes as read, or NaN or an infinity (R123). -/
def Obligations.AddResult : Prop :=
  ∀ (rd rs1 rs2 : Reg) (s : State), ∃ t, exec (.add rd rs1 rs2) s = .next t ∧
    classed (isNaN (s.srcA rs1) || isNaN (s.srcB rs2)) (isPInf (s.srcA rs1) || isPInf (s.srcB rs2))
      (isNInf (s.srcA rs1) || isNInf (s.srcB rs2)) (opMag (s.srcA rs1) + opMag (s.srcB rs2)) (t.readF rd)

/-- `SUB`: the sum of the first operand and the negated second, whose infinities are swapped and whose most negative
magnitude negates to itself (R125). -/
def Obligations.SubResult : Prop :=
  ∀ (rd rs1 rs2 : Reg) (s : State), ∃ t, exec (.sub rd rs1 rs2) s = .next t ∧
    classed (isNaN (s.srcA rs1) || isNaN (s.srcB rs2)) (isPInf (s.srcA rs1) || isNInf (s.srcB rs2))
      (isNInf (s.srcA rs1) || isPInf (s.srcB rs2))
      (opMag (s.srcA rs1) + (if s.srcB rs2 = 0x80000000 then -2 ^ 29 else -opMag (s.srcB rs2))) (t.readF rd)

/-- `MUL`: the exact product rounded once, tested for overflow after rounding (R141, with R140's rule for this hardware). -/
def Obligations.MulResult : Prop :=
  ∀ (rd rs1 rs2 : Reg) (s : State), ∃ t, exec (.mul rd rs1 rs2) s = .next t ∧
    classed (isNaN (s.srcA rs1) || isNaN (s.srcB rs2)) (isPInf (s.srcA rs1) || isPInf (s.srcB rs2))
      (isNInf (s.srcA rs1) || isNInf (s.srcB rs2)) (rne (opMag (s.srcA rs1) * opMag (s.srcB rs2)) 15) (t.readF rd)

/-- `DIV`: NaN for a zero-valued divisor, an infinite one among them; else the exact quotient rounded once (R142). -/
def Obligations.DivResult : Prop :=
  ∀ (rd rs1 rs2 : Reg) (s : State), ∃ t, exec (.div rd rs1 rs2) s = .next t ∧
    classed (isNaN (s.srcA rs1) || isNaN (s.srcB rs2) || decide (opMag (s.srcB rs2) = 0))
      (isPInf (s.srcA rs1)) (isNInf (s.srcA rs1))
      (rneDiv (opMag (s.srcA rs1) * 2 ^ 15) (opMag (s.srcB rs2))) (t.readF rd)

/-- `SQRT`: NaN for NaN, -Inf and a negative value, +Inf for +Inf, else the engine's root, always Normal (R160). -/
def Obligations.SqrtResult : Prop :=
  ∀ (rd rs1 : Reg) (s : State), ∃ t, exec (.sqrt rd rs1) s = .next t ∧
    (if isNaN (s.srcA rs1) = true ∨ isNInf (s.srcA rs1) = true ∨ isNegN (s.srcA rs1) = true then
       t.readF rd = 0x00000001
     else if isPInf (s.srcA rs1) = true then t.readF rd = 0x00000002
     else isValue (t.readF rd) (sqrtRef (mag (s.srcA rs1)).toNat))

/-- `EXP`: the classes, the two range limits, and +Inf when the evaluator's result does not fit (R170). -/
def Obligations.ExpResult : Prop :=
  ∀ (rd rs1 : Reg) (s : State), ∃ t, exec (.exp rd rs1) s = .next t ∧
    (if isNaN (s.srcA rs1) = true then t.readF rd = 0x00000001
     else if isPInf (s.srcA rs1) = true then t.readF rd = 0x00000002
     else if isNInf (s.srcA rs1) = true then t.readF rd = 0x00000000
     else if mag (s.srcA rs1) ≥ 2 ^ 19 then t.readF rd = 0x00000002
     else if mag (s.srcA rs1) ≤ -2 ^ 19 then t.readF rd = 0x00000000
     else if expRef (mag (s.srcA rs1)) > 2 ^ 29 - 1 then t.readF rd = 0x00000002
     else t.readF rd = BitVec.ofInt 32 (4 * expRef (mag (s.srcA rs1))))

/-- `LN`, `LOG2`, `LOG10`: the shared status rules around the evaluator (R180, R183 to R185). -/
def Obligations.LogResults : Prop :=
  ∀ (rd rs1 : Reg) (s : State),
    (∃ t, exec (.ln rd rs1) s = .next t ∧ logSpec (logRef .ln) (s.srcA rs1) (t.readF rd)) ∧
    (∃ t, exec (.log2 rd rs1) s = .next t ∧ logSpec (logRef .log2) (s.srcA rs1) (t.readF rd)) ∧
    (∃ t, exec (.log10 rd rs1) s = .next t ∧ logSpec (logRef .log10) (s.srcA rs1) (t.readF rd))

/-- `SIN`, `SINC`, `COSC`: NaN for NaN and the infinities, else the engine's result, always Normal (R200, R204, R207, R208). -/
def Obligations.SineResults : Prop :=
  ∀ (rd rs1 : Reg) (s : State),
    (∃ t, exec (.sin rd rs1) s = .next t ∧
      trigSpec (fun m => rne (sinPoly (sineReduce (circleFraction m))) 13) (s.srcA rs1) (t.readF rd)) ∧
    (∃ t, exec (.sinc rd rs1) s = .next t ∧
      trigSpec (fun m => rne (cordic (sineReduce (circleFraction m))).y 13) (s.srcA rs1) (t.readF rd)) ∧
    (∃ t, exec (.cosc rd rs1) s = .next t ∧
      trigSpec (fun m => rne (cordic (sineReduce ((circleFraction m + 2 ^ 28) % 2 ^ 30))).y 13)
        (s.srcA rs1) (t.readF rd))

/-- `TANC`: NaN for NaN and the infinities, else the rounded sine over the rounded cosine of the angle reduced to half a
turn, with the signed infinity for a zero cosine or an overflow (R200, R209). -/
def Obligations.TancResult : Prop :=
  ∀ (rd rs1 : Reg) (s : State), ∃ t, exec (.tanc rd rs1) s = .next t ∧
    (if isNaN (s.srcA rs1) = true ∨ isInf (s.srcA rs1) = true then t.readF rd = 0x00000001
     else ∃ θ : Int,
       (if circleFraction (mag (s.srcA rs1)) % 2 ^ 29 ≥ 2 ^ 28 then
          θ = circleFraction (mag (s.srcA rs1)) % 2 ^ 29 - 2 ^ 29
        else θ = circleFraction (mag (s.srcA rs1)) % 2 ^ 29) ∧
       tanSpec (rne (cordic θ).y 13) (rne (cordic θ).x 13) (t.readF rd))

/-- `CFRAC`: the floor of `m · 2^41 / QT` modulo `2^30`, a raw word with its top two bits zero, of the magnitude as
read (R201). -/
def Obligations.CfracResult : Prop :=
  ∀ (rd rs1 : Reg) (s : State), ∃ t, exec (.cfrac rd rs1) s = .next t ∧
    ((t.readF rd).toNat : Int) = opMag (s.srcA rs1) * 2 ^ 41 / 421657428 % 2 ^ 30 ∧
    (t.readF rd).toNat < 2 ^ 30

/-- `FROMINT`: the raw integer shifted left by 17, wrapping; always Normal, and exact in range (R107). -/
def Obligations.FromintResult : Prop :=
  ∀ (rd rs1 : Reg) (s : State), ∃ t, exec (.fromint rd rs1) s = .next t ∧
    t.readF rd = s.srcA rs1 <<< 17 ∧ isNormal (t.readF rd) = true ∧
    (-16384 ≤ (s.srcA rs1).toInt → (s.srcA rs1).toInt ≤ 16383 →
      mag (t.readF rd) = (s.srcA rs1).toInt * 2 ^ 15)

/-- `DATA`: the status field cleared, the magnitude bits kept, whatever the class (R108). -/
def Obligations.DataResult : Prop :=
  ∀ (rd rs1 : Reg) (s : State), ∃ t, exec (.data rd rs1) s = .next t ∧
    t.readF rd = s.srcA rs1 &&& 0xFFFFFFFC ∧ isValue (t.readF rd) (mag (s.srcA rs1))

/-- `CLASS`: the five tests in bits 4 to 0, the rest zero; exactly one of bits 0, 1, 2 and 4 is 1 (R109). -/
def Obligations.ClassResult : Prop :=
  ∀ (rd rs1 : Reg) (s : State), ∃ t, exec (.cls rd rs1) s = .next t ∧
    (t.readF rd).getLsbD 0 = isNaN (s.srcA rs1) ∧ (t.readF rd).getLsbD 1 = isPInf (s.srcA rs1) ∧
    (t.readF rd).getLsbD 2 = isNInf (s.srcA rs1) ∧ (t.readF rd).getLsbD 3 = (s.srcA rs1).getLsbD 31 ∧
    (t.readF rd).getLsbD 4 = isNormal (s.srcA rs1) ∧ (∀ k, 5 ≤ k → (t.readF rd).getLsbD k = false) ∧
    ((t.readF rd).getLsbD 0).toNat + ((t.readF rd).getLsbD 1).toNat + ((t.readF rd).getLsbD 2).toNat +
      ((t.readF rd).getLsbD 4).toNat = 1

/-- `MKVAL`: the magnitude bits of the first operand and the status of the second; `MOV` copies a register bit for bit
on an idle block (R110, R74). -/
def Obligations.MkvalResult : Prop :=
  (∀ (rd rs1 rs2 : Reg) (s : State), ∃ t, exec (.mkval rd rs1 rs2) s = .next t ∧
    (t.readF rd).extractLsb' 2 30 = (s.srcA rs1).extractLsb' 2 30 ∧
    statusField (t.readF rd) = statusField (s.srcB rs2)) ∧
  ∀ (rd rs : Reg) (s : State), s.inflight = none →
    ∃ t, exec (movInstr rd rs) s = .next t ∧ t.readF rd = s.readF rs

/-! ### Laws of the results -/

/-- Overflow of a sum shows in the sign bits of the operands and of the 32-bit raw sum, and in range the raw sum is the
result: the spec's own inference in 41_core_arith.md. -/
def Obligations.AddOverflowBySignBits : Prop :=
  ∀ (a b A B S : Word), A = normalW (opMag a) → B = normalW (opMag b) → S = A + B →
    (opMag a + opMag b > 2 ^ 29 - 1 ↔ A.msb = false ∧ B.msb = false ∧ S.msb = true) ∧
    (opMag a + opMag b < -2 ^ 29 ↔ A.msb = true ∧ B.msb = true ∧ S.msb = false) ∧
    (fits (opMag a + opMag b) = true → isValue S (opMag a + opMag b))

/-- `ADD` and `MUL` are commutative on all operands (41_core_arith.md, 42_muldiv.md). -/
def Obligations.AddMulCommute : Prop :=
  ∀ (rd r1 r2 : Reg) (s : State), s.inflight = none →
    exec (.add rd r1 r2) s = exec (.add rd r2 r1) s ∧ exec (.mul rd r1 r2) s = exec (.mul rd r2 r1) s

/-- The product rounded on the raw 32-bit words with status bits cleared is the product rounded on the magnitudes: the
spec's own inference in 42_muldiv.md. -/
def Obligations.MulOnRawWords : Prop :=
  ∀ a b : Word, rne (opMag a * opMag b) 15 = rne ((normalW (opMag a)).toInt * (normalW (opMag b)).toInt) 19

/-- The two sign rules for infinities agree whenever neither operand is an infinity, for `MUL` and for `DIV`: the spec's
own inference in 42_muldiv.md. -/
def Obligations.InfSignRulesAgree : Prop :=
  ∀ a b : Word, isInf a = false → isInf b = false →
    (∀ n q, n = (isNaN a || isNaN b) → q = rne (opMag a * opMag b) 15 →
      combineWith .addStyle a b n q = combineWith .xorSign a b n q) ∧
    (∀ n q, n = (isNaN a || isNaN b || decide (opMag b = 0)) →
      q = (if n = true then 0 else rneDiv (opMag a * 2 ^ 15) (opMag b)) →
      combineWith .addStyle a b n q = combineWith .xorSign a b n q)

/-- `rne(x, n)` is `x / 2^n` to the nearest integer, and the even one on a tie (R9). -/
def Obligations.RneIsNearestEven : Prop :=
  ∀ (x : Int) (n : Nat), |2 * (x - rne x n * 2 ^ n)| ≤ 2 ^ n ∧
    (|2 * (x - rne x n * 2 ^ n)| = 2 ^ n → rne x n % 2 = 0)

/-- `rne_div(n, d)` is `n / d` to the nearest integer, and the even one on a tie, for every `d ≠ 0` (R10). -/
def Obligations.RneDivIsNearestEven : Prop :=
  ∀ n d : Int, d ≠ 0 → |2 * (n - rneDiv n d * d)| ≤ |d| ∧
    (|2 * (n - rneDiv n d * d)| = |d| → rneDiv n d % 2 = 0)

/-- The two roundings are odd functions: the spec's own inference in 42_muldiv.md. -/
def Obligations.RoundingIsOdd : Prop :=
  (∀ (x : Int) (n : Nat), rne (-x) n = -rne x n) ∧ ∀ n d : Int, d ≠ 0 → rneDiv (-n) d = -rneDiv n d

/-- The square-root engine returns the correctly rounded root of `m · 2^15` for every operand it is given: the spec's
own inference in 43_sqrt.md. -/
def Obligations.SqrtCorrectlyRounded : Prop :=
  ∀ m : Nat, m < 2 ^ 29 →
    4 * (m * 2 ^ 15) < (2 * sqrtRef m + 1) ^ 2 ∧ (0 < sqrtRef m → (2 * sqrtRef m - 1) ^ 2 < 4 * (m * 2 ^ 15))

/-- The evaluator's result is representable for every operand it is given, so that a logarithm never overflows: the spec's
own inference in 45_log.md. -/
def Obligations.LogResultsRepresentable : Prop :=
  ∀ (op : LogOp) (m : Nat), 1 ≤ m → m < 2 ^ 29 → |logRef op m| < 2 ^ 19

/-- Every exact power of two has its exponent as its base-2 logarithm (R184). -/
def Obligations.Log2OfPowersOfTwo : Prop :=
  ∀ k : Fin 29, logRef .log2 (2 ^ k.val) = ((k.val : Int) - 15) * 2 ^ 15

/-- The CORDIC iterations drive the angle accumulator of every reduced angle to within 21 units of zero, one more than
the last micro-angle, because of the table's rounding: an inference from R205 and R206, no rule of the spec. -/
def Obligations.CordicConverges : Prop :=
  ∀ θ : Int, -2 ^ 28 ≤ θ → θ ≤ 2 ^ 28 → |(cordic θ).t| ≤ 21

/-- A NaN operand gives the canonical NaN, for every arithmetic and transcendental command (R106, R244). -/
def Obligations.NaNPropagates : Prop :=
  ∀ (i : Instr) (s : State), propagatesNaN i = true →
    (isNaN (s.srcA i.rs1) = true ∨ ∃ r, i.rs2 = some r ∧ isNaN (s.srcB r) = true) →
    ∃ t, exec i s = .next t ∧ t.readF i.rd = 0x00000001

/-- A non-Normal result of an arithmetic or transcendental command is canonical: its magnitude bits are zero (R104). -/
def Obligations.SpecialResultsAreCanonical : Prop :=
  ∀ (i : Instr) (s : State), propagatesNaN i = true →
    ∃ t, exec i s = .next t ∧ (isNormal (t.readF i.rd) = false →
      t.readF i.rd = 0x00000001 ∨ t.readF i.rd = 0x00000002 ∨ t.readF i.rd = 0x00000003)

/-- The magnitude bits of a NaN or infinity operand never influence the result of a command that reads magnitudes (R103). -/
def Obligations.SpecialMagnitudesIgnored : Prop :=
  (∀ w : Word, opMag w = if isNormal w = true then mag w else 0) ∧
  ∀ (i : Instr) (s t : State), readsMagnitude i = true →
    sameReading (s.srcA i.rs1) (t.srcA i.rs1) → (∀ r, i.rs2 = some r → sameReading (s.srcB r) (t.srcB r)) →
    ∃ s' t', exec i s = .next s' ∧ exec i t = .next t' ∧ s'.readF i.rd = t'.readF i.rd

/-- On a byte-addressed bus, lane `k` of an aligned word of the window holds bits `8k+7 : 8k` and stands `k` bytes above
the word's address (R43, little-endian). -/
def Obligations.ByteLanes : Prop :=
  ∀ (s : State) (off b : BitVec 6) (k : Fin 4), off.toNat % 4 = 0 → b.toNat = off.toNat + k.val →
    s.laneByte b = (s.windowWord off).extractLsb' (8 * k.val) 8 ∧
    laneAddress lanes off k = Config.pBase + off.toNat + k.val
end

