-- ==== Sys2Proof/Laws/Decode.lean ====
section
/-!
SUPPORT. The fields of a command word that is written as a concatenation of them (R65).
-/

namespace Sys2Proof

section
variable (z : BitVec 17) (r2 r1 d : Reg) (n : BitVec 6)

theorem word_opc : (z ++ r2 ++ r1 ++ d ++ n).extractLsb' 0 6 = n :=
  (BitVec.extractLsb'_append_eq_of_add_le (by decide)).trans <|
  BitVec.extractLsb'_eq_self

theorem word_rd : (z ++ r2 ++ r1 ++ d ++ n).extractLsb' 6 3 = d :=
  (BitVec.extractLsb'_append_eq_of_le (by decide)).trans <|
  (BitVec.extractLsb'_append_eq_of_add_le (by decide)).trans <|
  BitVec.extractLsb'_eq_self

theorem word_rs1 : (z ++ r2 ++ r1 ++ d ++ n).extractLsb' 9 3 = r1 :=
  (BitVec.extractLsb'_append_eq_of_le (by decide)).trans <|
  (BitVec.extractLsb'_append_eq_of_le (by decide)).trans <|
  (BitVec.extractLsb'_append_eq_of_add_le (by decide)).trans <|
  BitVec.extractLsb'_eq_self

theorem word_rs2 : (z ++ r2 ++ r1 ++ d ++ n).extractLsb' 12 3 = r2 :=
  (BitVec.extractLsb'_append_eq_of_le (by decide)).trans <|
  (BitVec.extractLsb'_append_eq_of_le (by decide)).trans <|
  (BitVec.extractLsb'_append_eq_of_le (by decide)).trans <|
  (BitVec.extractLsb'_append_eq_of_add_le (by decide)).trans <|
  BitVec.extractLsb'_eq_self

theorem word_zero : (z ++ r2 ++ r1 ++ d ++ n).extractLsb' 15 17 = z :=
  (BitVec.extractLsb'_append_eq_of_le (by decide)).trans <|
  (BitVec.extractLsb'_append_eq_of_le (by decide)).trans <|
  (BitVec.extractLsb'_append_eq_of_le (by decide)).trans <|
  (BitVec.extractLsb'_append_eq_of_le (by decide)).trans <|
  BitVec.extractLsb'_eq_self

end

/-- Looking an opcode's number up gives the opcode back (R68). -/
theorem opcodeOfCode_code (op : Opcode) : opcodeOfCode op.code = some op := by cases op <;> rfl

/-- The fields of an encoded command are the command's (R65, R66). -/
theorem commandFields_encode (i : Instr) :
    commandFields (encode i) = ⟨some i.opcode, i.rd, i.rs1, i.rs2.getD 0, 0⟩ := by
  have h (op : Option Opcode) (k1 k2 k3 : Reg) (z : BitVec 17) (r d k : Reg) (x : BitVec 17)
      (h0 : op = some i.opcode) (h1 : k1 = d) (h2 : k2 = r) (h3 : k3 = k) (h4 : z = x) :
      (⟨op, k1, k2, k3, z⟩ : Command) = ⟨some i.opcode, d, r, k, x⟩ := by subst h0 h1 h2 h3 h4; rfl
  exact h _ _ _ _ _ _ _ _ _ ((congrArg opcodeOfCode (word_opc ..)).trans (opcodeOfCode_code _))
    (word_rd ..) (word_rs1 ..) (word_rs2 ..) (word_zero ..)

/-- A command and its opcode have the same form (R67). -/
theorem rs2_isSome_iff_formR (i : Instr) : i.rs2.isSome = true ↔ i.opcode.form = .r := by
  cases i <;> simp [Instr.rs2, Instr.opcode, Opcode.form]

end Sys2Proof
end

