-- ==== Sys2Proof/Laws/State.lean ====
section
/-!
SUPPORT. What each named update of the state does to each field, and reading a register after it.
-/

namespace Sys2Proof.Machine

variable (s : State) (i j : Reg) (v w : Word)

/-! ### Reading a register of a state that keeps the register file of another -/

@[simp] theorem State.readF_mk (wr : Vector Bool 8) (c : Word) (il : Bool) (fl : Option InFlight) (re : Response)
    (inp : List Input) : State.readF ⟨s.f, wr, c, il, fl, re, inp⟩ = s.readF := rfl

@[simp] theorem State.isWritten_mk (f : Vector Word 8) (c : Word) (il : Bool) (fl : Option InFlight) (re : Response)
    (inp : List Input) : State.isWritten ⟨f, s.written, c, il, fl, re, inp⟩ = s.isWritten := rfl

/-! ### `writeF` -/

@[simp] theorem State.writeF_cmdr : (s.writeF i v).cmdr = s.cmdr := rfl
@[simp] theorem State.writeF_ill : (s.writeF i v).ill = s.ill := rfl
@[simp] theorem State.writeF_inflight : (s.writeF i v).inflight = s.inflight := rfl
@[simp] theorem State.writeF_resp : (s.writeF i v).resp = s.resp := rfl
@[simp] theorem State.writeF_input : (s.writeF i v).input = s.input := rfl

/-- A register reads back what was written to it, and a write of another leaves it (R20, R22). -/
@[simp] theorem State.readF_writeF : (s.writeF i v).readF j = if i = j then v else s.readF j := by
  simp [State.readF, State.writeF, Vector.getElem_set, BitVec.toNat_inj]

@[simp] theorem State.isWritten_writeF : (s.writeF i v).isWritten j = (decide (i = j) || s.isWritten j) := by
  by_cases h : i = j <;> simp [State.isWritten, State.writeF, BitVec.toNat_inj, h]

/-! ### `complete` -/

@[simp] theorem State.complete_cmdr : (s.complete i v).cmdr = s.cmdr := rfl
@[simp] theorem State.complete_ill : (s.complete i v).ill = s.ill := rfl
@[simp] theorem State.complete_inflight : (s.complete i v).inflight = none := rfl
@[simp] theorem State.complete_resp : (s.complete i v).resp = s.resp := rfl
@[simp] theorem State.complete_input : (s.complete i v).input = s.input := rfl
@[simp] theorem State.readF_complete : (s.complete i v).readF j = if i = j then v else s.readF j :=
  State.readF_writeF s i j v
@[simp] theorem State.isWritten_complete : (s.complete i v).isWritten j = (decide (i = j) || s.isWritten j) :=
  State.isWritten_writeF s i j v

/-! ### `accept` -/

@[simp] theorem State.accept_f (c : Instr) : (s.accept c).f = s.f := rfl
@[simp] theorem State.accept_written (c : Instr) : (s.accept c).written = s.written := rfl
@[simp] theorem State.accept_cmdr (c : Instr) : (s.accept c).cmdr = s.cmdr := rfl
@[simp] theorem State.accept_ill (c : Instr) : (s.accept c).ill = s.ill := rfl
@[simp] theorem State.accept_inflight (c : Instr) :
    (s.accept c).inflight = some ⟨c, s.readF c.rs1, c.rs2.map s.readF, Config.lat c.opcode⟩ := rfl
@[simp] theorem State.accept_resp (c : Instr) : (s.accept c).resp = s.resp := rfl
@[simp] theorem State.accept_input (c : Instr) : (s.accept c).input = s.input := rfl
@[simp] theorem State.readF_accept (c : Instr) : (s.accept c).readF i = s.readF i := rfl
@[simp] theorem State.isWritten_accept (c : Instr) : (s.accept c).isWritten i = s.isWritten i := rfl

/-! ### `illegalCommand` -/

@[simp] theorem State.illegalCommand_f : s.illegalCommand.f = s.f := rfl
@[simp] theorem State.illegalCommand_written : s.illegalCommand.written = s.written := rfl
@[simp] theorem State.illegalCommand_cmdr : s.illegalCommand.cmdr = s.cmdr := rfl
@[simp] theorem State.illegalCommand_ill : s.illegalCommand.ill = true := rfl
@[simp] theorem State.illegalCommand_inflight : s.illegalCommand.inflight = s.inflight := rfl
@[simp] theorem State.illegalCommand_resp : s.illegalCommand.resp = s.resp := rfl
@[simp] theorem State.illegalCommand_input : s.illegalCommand.input = s.input := rfl
@[simp] theorem State.readF_illegalCommand : s.illegalCommand.readF i = s.readF i := rfl
@[simp] theorem State.isWritten_illegalCommand : s.illegalCommand.isWritten i = s.isWritten i := rfl

/-! ### `writeStatus` -/

@[simp] theorem State.writeStatus_f : (s.writeStatus v).f = s.f := rfl
@[simp] theorem State.writeStatus_written : (s.writeStatus v).written = s.written := rfl
@[simp] theorem State.writeStatus_cmdr : (s.writeStatus v).cmdr = s.cmdr := rfl
@[simp] theorem State.writeStatus_ill : (s.writeStatus v).ill = (s.ill && !(v.getLsbD 1)) := rfl
@[simp] theorem State.writeStatus_inflight : (s.writeStatus v).inflight = s.inflight := rfl
@[simp] theorem State.writeStatus_resp : (s.writeStatus v).resp = s.resp := rfl
@[simp] theorem State.writeStatus_input : (s.writeStatus v).input = s.input := rfl
@[simp] theorem State.readF_writeStatus : (s.writeStatus v).readF i = s.readF i := rfl
@[simp] theorem State.isWritten_writeStatus : (s.writeStatus v).isWritten i = s.isWritten i := rfl

/-! ### `resetCycle` -/

@[simp] theorem State.resetCycle_cmdr : s.resetCycle.cmdr = 0x00000000 := rfl
@[simp] theorem State.resetCycle_ill : s.resetCycle.ill = false := rfl
@[simp] theorem State.resetCycle_inflight : s.resetCycle.inflight = none := rfl
@[simp] theorem State.resetCycle_resp : s.resetCycle.resp = .none := rfl
@[simp] theorem State.resetCycle_input : s.resetCycle.input = s.input := rfl
@[simp] theorem State.isWritten_resetCycle : s.resetCycle.isWritten i = false := by
  simp [State.isWritten, State.resetCycle, State.reset]

end Sys2Proof.Machine
end

