-- ==== Sys2Proof/Laws/Ops.lean ====
section
/-!
SUPPORT. One lemma per shared operation: everything the operation can do.
-/

namespace Sys2Proof.Machine

/-- The operand of an idle block is the register (R100). -/
theorem State.srcA_idle {s : State} (h : s.inflight = none) (r : Reg) : s.srcA r = s.readF r := by
  simp [State.srcA, h]

theorem State.srcB_idle {s : State} (h : s.inflight = none) (r : Reg) : s.srcB r = s.readF r := by
  simp [State.srcB, h]

/-- The operand of a command in flight is the word latched at its acceptance (R30, R100). -/
theorem State.srcA_inflight {s : State} {c : InFlight} (h : s.inflight = some c) (r : Reg) : s.srcA r = c.a := by
  simp [State.srcA, h]

theorem State.srcB_inflight {s : State} {c : InFlight} (h : s.inflight = some c) (r : Reg) :
    s.srcB r = c.b.getD 0 := by
  simp [State.srcB, h]

theorem State.busy_eq_false {s : State} : s.busy = false ↔ s.inflight = none := by
  simp [State.busy]

theorem State.busy_eq_true {s : State} : s.busy = true ↔ ∃ c, s.inflight = some c := by
  simp [State.busy, Option.isSome_iff_exists]

/-- A write of `CMDR` either accepts the command the word decodes to, or sets `ILL` (R241, R245). -/
theorem State.submit_cases (s : State) (w : Word) :
    (∃ i, decode w = .ok i ∧ s.submit w = State.accept { s with cmdr := w } i) ∨
    (∃ e, decode w = .error e ∧ s.submit w = State.illegalCommand { s with cmdr := w }) := by
  unfold State.submit
  cases h : decode w with
  | ok i => exact .inl ⟨i, rfl, rfl⟩
  | error e => exact .inr ⟨e, rfl, rfl⟩

@[simp] theorem State.submit_cmdr (s : State) (w : Word) : (s.submit w).cmdr = w := by
  obtain ⟨i, -, h⟩ | ⟨e, -, h⟩ := s.submit_cases w <;> simp [h]

@[simp] theorem State.submit_f (s : State) (w : Word) : (s.submit w).f = s.f := by
  obtain ⟨i, -, h⟩ | ⟨e, -, h⟩ := s.submit_cases w <;> simp [h]

@[simp] theorem State.submit_written (s : State) (w : Word) : (s.submit w).written = s.written := by
  obtain ⟨i, -, h⟩ | ⟨e, -, h⟩ := s.submit_cases w <;> simp [h]

@[simp] theorem State.submit_resp (s : State) (w : Word) : (s.submit w).resp = s.resp := by
  obtain ⟨i, -, h⟩ | ⟨e, -, h⟩ := s.submit_cases w <;> simp [h]

@[simp] theorem State.submit_input (s : State) (w : Word) : (s.submit w).input = s.input := by
  obtain ⟨i, -, h⟩ | ⟨e, -, h⟩ := s.submit_cases w <;> simp [h]

@[simp] theorem State.readF_submit (s : State) (w : Word) (i : Reg) : (s.submit w).readF i = s.readF i := by
  simp [State.readF]

@[simp] theorem windowReg_cmdr : windowReg 32#6 = .cmdr := by decide
@[simp] theorem windowReg_status : windowReg 36#6 = .status := by decide

/-- The only illegal accesses are those of another width and those at no multiple of 4 (R44). -/
theorem accessLegal_eq_false {a : Access} :
    accessLegal a = false ↔ a.size ≠ .bits32 ∨ a.off.toNat % 4 ≠ 0 := by
  have h (o : BitVec 6) : (o.extractLsb' 0 2 == 0) = decide (o.toNat % 4 = 0) := by
    revert o; decide
  unfold accessLegal
  rw [h]
  by_cases hz : a.size = .bits32 <;> simp [hz]

/-- A legal access is a 32-bit access at a multiple of 4 (R44). -/
theorem accessLegal_aligned {a : Access} (h : accessLegal a = true) : a.size = .bits32 ∧ a.off.toNat % 4 = 0 := by
  by_contra hc
  have := accessLegal_eq_false.2 (show a.size ≠ .bits32 ∨ a.off.toNat % 4 ≠ 0 by tauto)
  simp [h] at this

/-- An aligned offset names `F[i]` exactly when it is `4*i` (R41). -/
theorem windowReg_eq_f {off : BitVec 6} (h : off.toNat % 4 = 0) (i : Reg) :
    windowReg off = .f i ↔ off.toNat = 4 * i.toNat := by
  revert i off; decide

/-- The aligned offsets of `CMDR`, of `STATUS` and of the reserved words (R41). -/
theorem windowReg_eq_other {off : BitVec 6} (h : off.toNat % 4 = 0) :
    (windowReg off = .cmdr ↔ off = 32#6) ∧ (windowReg off = .status ↔ off = 36#6) ∧
    (windowReg off = .reserved ↔ 40 ≤ off.toNat) := by
  revert off; decide

/-- Held accesses are those up to `0x20` (R41, R46). -/
theorem heldWhileBusy_iff {off : BitVec 6} (h : off.toNat % 4 = 0) :
    heldWhileBusy off = true ↔ off.toNat ≤ 32 := by
  revert off; decide

/-- What a write of the window does, by the register the offset names (R41, R42). -/
theorem State.windowWrite_cases (s : State) (off : BitVec 6) (v : Word) :
    (∃ i, windowReg off = .f i ∧ s.windowWrite off v = s.writeF i v) ∨
    (windowReg off = .cmdr ∧ s.windowWrite off v = s.submit v) ∨
    (windowReg off = .status ∧ s.windowWrite off v = s.writeStatus v) ∨
    (windowReg off = .reserved ∧ s.windowWrite off v = s) := by
  unfold State.windowWrite
  cases h : windowReg off with
  | f i => exact .inl ⟨i, rfl, rfl⟩
  | cmdr => exact .inr (.inl ⟨rfl, rfl⟩)
  | status => exact .inr (.inr (.inl ⟨rfl, rfl⟩))
  | reserved => exact .inr (.inr (.inr ⟨rfl, rfl⟩))

@[simp] theorem State.windowWrite_input (s : State) (off : BitVec 6) (v : Word) :
    (s.windowWrite off v).input = s.input := by
  obtain ⟨i, -, h⟩ | ⟨-, h⟩ | ⟨-, h⟩ | ⟨-, h⟩ := s.windowWrite_cases off v <;> simp [h]

@[simp] theorem State.perform_read (s : State) (z : Width) (off : BitVec 6) :
    s.perform (.read z off) = { s with resp := .data (s.windowWord off) } := rfl

@[simp] theorem State.perform_write (s : State) (z : Width) (off : BitVec 6) (v : Word) :
    s.perform (.write z off v) = { s.windowWrite off v with resp := .done } := rfl

@[simp] theorem State.perform_input (s : State) (a : Access) : (s.perform a).input = s.input := by
  cases a <;> simp

/-- Everything a legal access can do: respond, write `STATUS`, submit a command word, or write a value register (R45). -/
theorem State.perform_cases {a : Access} (s : State) (hl : accessLegal a = true) :
    (∃ r, s.perform a = { s with resp := r }) ∨
    (∃ v, a = .write .bits32 0x24 v ∧ s.perform a = { s.writeStatus v with resp := .done }) ∨
    (∃ v, a = .write .bits32 0x20 v ∧ s.perform a = { s.submit v with resp := .done }) ∨
    (∃ off i v, a = .write .bits32 off v ∧ off.toNat = 4 * i.toNat ∧
      s.perform a = { s.writeF i v with resp := .done }) := by
  obtain ⟨hz, ha⟩ := accessLegal_aligned hl
  cases a with
  | read z o => exact .inl ⟨_, rfl⟩
  | write z o v =>
    simp only [Access.off] at ha
    simp only [Access.size] at hz
    subst hz
    obtain ⟨i, h, e⟩ | ⟨h, e⟩ | ⟨h, e⟩ | ⟨h, e⟩ := s.windowWrite_cases o v
    · exact .inr (.inr (.inr ⟨o, i, v, rfl, (windowReg_eq_f ha i).1 h, by simp [e]⟩))
    · rw [(windowReg_eq_other ha).1] at h
      subst h
      exact .inr (.inr (.inl ⟨v, rfl, by simp [e]⟩))
    · rw [(windowReg_eq_other ha).2.1] at h
      subst h
      exact .inr (.inl ⟨v, rfl, by simp [e]⟩)
    · exact .inl ⟨.done, by simp [e]⟩

/-- An access that is not held can only respond or write `STATUS` (R46). -/
theorem State.perform_unheld_cases {a : Access} (s : State) (hl : accessLegal a = true)
    (hh : heldWhileBusy a.off = false) :
    (∃ r, s.perform a = { s with resp := r }) ∨
    (∃ v, a = .write .bits32 0x24 v ∧ s.perform a = { s.writeStatus v with resp := .done }) := by
  have ha := (accessLegal_aligned hl).2
  obtain h | h | ⟨v, rfl, -⟩ | ⟨off, i, v, rfl, hi, -⟩ := s.perform_cases hl
  · exact .inl h
  · exact .inr h
  · simp [heldWhileBusy, Access.off] at hh
  · simp only [Access.off] at hh ha
    simp [heldWhileBusy, (windowReg_eq_f ha i).2 hi] at hh

end Sys2Proof.Machine
end

