-- ==== Sys2Proof/Laws/Exec.lean ====
section
/-!
SUPPORT. What a command does: its result is a function of its operand words, and completing is all it does.
-/

namespace Sys2Proof.Machine

/-- The result word of a command on its operand words (R13, R100: `result_op`). -/
def resultOf (i : Instr) (a b : Word) : Word :=
  match i with
  | .neg _ _ => negW a
  | .abs _ _ => absW a
  | .add _ _ _ => addW a b
  | .sub _ _ _ => subW a b
  | .mul _ _ _ => mulW a b
  | .div _ _ _ => divW a b
  | .sqrt _ _ => sqrtW a
  | .exp _ _ => expW a
  | .ln _ _ => logW .ln a
  | .log2 _ _ => logW .log2 a
  | .log10 _ _ => logW .log10 a
  | .sin _ _ => trigW sinFn a
  | .sinc _ _ => trigW sincFn a
  | .cosc _ _ => trigW coscFn a
  | .tanc _ _ => tancW a
  | .cfrac _ _ => cfracW a
  | .fromint _ _ => fromIntW a
  | .data _ _ => dataW a
  | .cls _ _ => classW a
  | .mkval _ _ _ => mkvalW a b

/-- Executing a command writes its result to `F[rd]` and frees the block: it never faults, and it does
nothing else (R100, R240). -/
theorem exec_eq_complete (i : Instr) (s : State) :
    exec i s = .next (s.complete i.rd (resultOf i (s.srcA i.rs1) (s.srcB (i.rs2.getD 0)))) := by
  cases i <;> rfl

/-- Everything a command can answer (R240). -/
theorem exec_cases {i : Instr} {s t : State} (h : exec i s = .next t) :
    ∃ v, v = resultOf i (s.srcA i.rs1) (s.srcB (i.rs2.getD 0)) ∧ t = s.complete i.rd v := by
  rw [exec_eq_complete] at h
  exact ⟨_, rfl, (Host.Outcome.next.inj h).symm⟩

theorem exec_ne_fault (i : Instr) (s : State) (r : Fault) : exec i s ≠ .fault r := by
  rw [exec_eq_complete]; exact nofun

theorem exec_ne_refused (i : Instr) (s : State) (r : Refusal) : exec i s ≠ .refused r := by
  rw [exec_eq_complete]; exact nofun

end Sys2Proof.Machine
end

