-- ==== Sys2Proof/Laws/PerInstr.lean ====
section
/-!
SUPPORT. Statements about every command as syntax, one lemma per constructor.
-/

namespace Sys2Proof.Laws.EncodeLegal

/-- The low six bits of a command's word are its opcode number, the reserved bits are zero, and its word
is legal (R65, R68, R69). -/
def Statement (i : Instr) : Prop :=
  (encode i).extractLsb' 0 6 = i.opcode.code ∧ (encode i).extractLsb' 15 17 = 0 ∧ legal (encode i) = true

/-- What is left to show of a command, its fields known, is that the decoder's two checks pass. -/
theorem of_checks {i : Instr} (h : (commandFields (encode i)).secondSourceOk = true) : Statement i := by
  refine ⟨word_opc .., word_zero .., ?_⟩
  unfold legal decode
  simp only [h, Command.reservedClear]
  rw [commandFields_encode]
  rfl

theorem neg (rd rs1 : Reg) : Statement (.neg rd rs1) :=
  of_checks (by rw [commandFields_encode]; rfl)

theorem abs (rd rs1 : Reg) : Statement (.abs rd rs1) :=
  of_checks (by rw [commandFields_encode]; rfl)

theorem add (rd rs1 rs2 : Reg) : Statement (.add rd rs1 rs2) :=
  of_checks (by rw [commandFields_encode]; rfl)

theorem sub (rd rs1 rs2 : Reg) : Statement (.sub rd rs1 rs2) :=
  of_checks (by rw [commandFields_encode]; rfl)

theorem mul (rd rs1 rs2 : Reg) : Statement (.mul rd rs1 rs2) :=
  of_checks (by rw [commandFields_encode]; rfl)

theorem div (rd rs1 rs2 : Reg) : Statement (.div rd rs1 rs2) :=
  of_checks (by rw [commandFields_encode]; rfl)

theorem sqrt (rd rs1 : Reg) : Statement (.sqrt rd rs1) :=
  of_checks (by rw [commandFields_encode]; rfl)

theorem exp (rd rs1 : Reg) : Statement (.exp rd rs1) :=
  of_checks (by rw [commandFields_encode]; rfl)

theorem ln (rd rs1 : Reg) : Statement (.ln rd rs1) :=
  of_checks (by rw [commandFields_encode]; rfl)

theorem log2 (rd rs1 : Reg) : Statement (.log2 rd rs1) :=
  of_checks (by rw [commandFields_encode]; rfl)

theorem log10 (rd rs1 : Reg) : Statement (.log10 rd rs1) :=
  of_checks (by rw [commandFields_encode]; rfl)

theorem sin (rd rs1 : Reg) : Statement (.sin rd rs1) :=
  of_checks (by rw [commandFields_encode]; rfl)

theorem sinc (rd rs1 : Reg) : Statement (.sinc rd rs1) :=
  of_checks (by rw [commandFields_encode]; rfl)

theorem cosc (rd rs1 : Reg) : Statement (.cosc rd rs1) :=
  of_checks (by rw [commandFields_encode]; rfl)

theorem tanc (rd rs1 : Reg) : Statement (.tanc rd rs1) :=
  of_checks (by rw [commandFields_encode]; rfl)

theorem cfrac (rd rs1 : Reg) : Statement (.cfrac rd rs1) :=
  of_checks (by rw [commandFields_encode]; rfl)

theorem fromint (rd rs1 : Reg) : Statement (.fromint rd rs1) :=
  of_checks (by rw [commandFields_encode]; rfl)

theorem data (rd rs1 : Reg) : Statement (.data rd rs1) :=
  of_checks (by rw [commandFields_encode]; rfl)

theorem cls (rd rs1 : Reg) : Statement (.cls rd rs1) :=
  of_checks (by rw [commandFields_encode]; rfl)

theorem mkval (rd rs1 rs2 : Reg) : Statement (.mkval rd rs1 rs2) :=
  of_checks (by rw [commandFields_encode]; rfl)

end Sys2Proof.Laws.EncodeLegal
end

