-- ==== Sys2Proof/Laws/Step.lean ====
section
/-!
SUPPORT. Everything a step of the block can do, said once.
-/

namespace Sys2Proof.Machine

/-- A completion always answers a next state: the command's, or the same one on an idle block. -/
theorem completeInFlight_cases (s : State) :
    (s.inflight = none ∧ completeInFlight s = .next s) ∨
    (∃ c, s.inflight = some c ∧
      completeInFlight s = .next (s.complete c.instr.rd (resultOf c.instr c.a (c.b.getD 0)))) := by
  unfold completeInFlight
  cases h : s.inflight with
  | none => exact .inl ⟨rfl, rfl⟩
  | some c =>
    refine .inr ⟨c, rfl, ?_⟩
    rw [← State.srcA_inflight h c.instr.rs1, ← State.srcB_inflight h (c.instr.rs2.getD 0)]
    exact exec_eq_complete c.instr s

/-- A clock cycle always answers a next state: the same one, one cycle less, or the completion (R25). -/
theorem tick_cases (s : State) :
    (s.inflight = none ∧ tick s = .next s) ∨
    (∃ c, s.inflight = some c ∧ 2 ≤ c.left ∧
      tick s = .next { s with inflight := some { c with left := c.left - 1 } }) ∨
    (∃ c, s.inflight = some c ∧ c.left ≤ 1 ∧
      tick s = .next (s.complete c.instr.rd (resultOf c.instr c.a (c.b.getD 0)))) := by
  unfold tick
  cases h : s.inflight with
  | none => exact .inl ⟨rfl, rfl⟩
  | some c =>
    by_cases hl : c.left ≤ 1
    · refine .inr (.inr ⟨c, rfl, hl, ?_⟩)
      obtain ⟨h0, -⟩ | ⟨d, hd, hc⟩ := completeInFlight_cases s
      · simp [h] at h0
      · obtain rfl : c = d := by simpa [h] using hd
        simpa [hl] using hc
    · exact .inr (.inl ⟨c, rfl, by omega, by simp [hl]⟩)

/-- One step is a completion the host waits for (or nothing, on an idle block), a reset cycle, a clock cycle, a bus error,
or a performed access (R44, R46, R245, R260). -/
theorem step_cases (s : State) :
    ((s.input = [] ∨ ∃ a rest, s.input = .access a :: rest ∧ accessLegal a = true ∧ s.busy = true ∧
        heldWhileBusy a.off = true) ∧ step s = completeInFlight { s with resp := .none }) ∨
    (∃ rest, s.input = .rst :: rest ∧ step s = .next (State.resetCycle { s with input := rest })) ∨
    (∃ rest, s.input = .idle :: rest ∧ step s = tick { s with input := rest, resp := .none }) ∨
    (∃ a rest, s.input = .access a :: rest ∧ accessLegal a = false ∧ step s = .fault (.busError a.off)) ∨
    (∃ a rest, s.input = .access a :: rest ∧ accessLegal a = true ∧
      (s.busy = false ∨ heldWhileBusy a.off = false) ∧
      step s = tickThenPerform a { s with input := rest, resp := .none }) := by
  unfold step cycle
  split
  · rename_i h
    exact .inl ⟨.inl h, rfl⟩
  · rename_i rest h
    exact .inr (.inl ⟨rest, h, rfl⟩)
  · rename_i rest h
    exact .inr (.inr (.inl ⟨rest, h, rfl⟩))
  · rename_i a rest h
    unfold serve
    by_cases hl : accessLegal a = true
    · by_cases hh : (s.busy && heldWhileBusy a.off) = true
      · rw [Bool.and_eq_true] at hh
        exact .inl ⟨.inr ⟨a, rest, h, hl, hh⟩, by simp [hl, hh]⟩
      · have hor : s.busy = false ∨ heldWhileBusy a.off = false := by
          simpa [Bool.and_eq_true, Decidable.imp_iff_not_or] using hh
        exact .inr (.inr (.inr (.inr ⟨a, rest, h, hl, hor, by rw [if_neg (by simp [hl]), if_neg hh]⟩)))
    · have hf : accessLegal a = false := by simpa using hl
      exact .inr (.inr (.inr (.inl ⟨a, rest, h, hf, by simp [hf]⟩)))

/-- A performed access follows the in-flight command's own progress in the cycle (R25, R45). -/
theorem tickThenPerform_cases (a : Access) (s : State) :
    ∃ t, tick s = .next t ∧ tickThenPerform a s = .next (t.perform a) := by
  unfold tickThenPerform
  obtain ⟨-, h⟩ | ⟨c, -, -, h⟩ | ⟨c, -, -, h⟩ := tick_cases s <;> exact ⟨_, h, by rw [h]⟩

/-- What a command in flight writes when it completes, on the state `s` (R100). -/
def completed (s : State) (c : InFlight) : State :=
  s.complete c.instr.rd (resultOf c.instr c.a (c.b.getD 0))

/-- Everything a step can do when it answers a next state: a reset cycle; nothing, on an idle block; one cycle less; the
completion; a performed access on an idle block; and one that is not held, with one cycle less or after the completion. -/
theorem step_next_cases {s t : State} (h : step s = .next t) :
    (∃ rest, s.input = .rst :: rest ∧ t = State.resetCycle { s with input := rest }) ∨
    (∃ inp, s.inflight = none ∧ t = { s with input := inp, resp := .none }) ∨
    (∃ c inp, s.inflight = some c ∧ 2 ≤ c.left ∧
      t = { s with inflight := some { c with left := c.left - 1 }, input := inp, resp := .none }) ∨
    (∃ c inp, s.inflight = some c ∧ t = completed { s with input := inp, resp := .none } c) ∨
    (∃ a rest, s.input = .access a :: rest ∧ accessLegal a = true ∧ s.inflight = none ∧
      t = State.perform { s with input := rest, resp := .none } a) ∨
    (∃ a rest c, s.input = .access a :: rest ∧ accessLegal a = true ∧ heldWhileBusy a.off = false ∧
      s.inflight = some c ∧ 2 ≤ c.left ∧
      t = State.perform
        { s with inflight := some { c with left := c.left - 1 }, input := rest, resp := .none } a) ∨
    (∃ a rest c, s.input = .access a :: rest ∧ accessLegal a = true ∧ heldWhileBusy a.off = false ∧
      s.inflight = some c ∧ t = State.perform (completed { s with input := rest, resp := .none } c) a) := by
  obtain ⟨-, hs⟩ | ⟨r, h0, hs⟩ | ⟨r, -, hs⟩ | ⟨a, r, -, -, hs⟩ | ⟨a, r, h0, hl, hb, hs⟩ := step_cases s <;> rw [hs] at h
  · obtain ⟨hn, hc⟩ | ⟨c, hn, hc⟩ := completeInFlight_cases { s with resp := .none } <;> rw [hc] at h <;> cases h
    · exact .inr (.inl ⟨s.input, hn, rfl⟩)
    · exact .inr (.inr (.inr (.inl ⟨c, s.input, hn, rfl⟩)))
  · cases h
    exact .inl ⟨r, h0, rfl⟩
  · obtain ⟨hn, hc⟩ | ⟨c, hn, hl, hc⟩ | ⟨c, hn, -, hc⟩ := tick_cases { s with input := r, resp := .none } <;>
      rw [hc] at h <;> cases h
    · exact .inr (.inl ⟨_, hn, rfl⟩)
    · exact .inr (.inr (.inl ⟨c, _, hn, hl, rfl⟩))
    · exact .inr (.inr (.inr (.inl ⟨c, _, hn, rfl⟩)))
  · cases h
  · obtain ⟨u, hu, hp⟩ := tickThenPerform_cases a { s with input := r, resp := .none }
    rw [hp] at h
    cases h
    have unheld {c} (hn : s.inflight = some c) : heldWhileBusy a.off = false :=
      hb.resolve_left (by simp [State.busy, hn])
    obtain ⟨hn, hc⟩ | ⟨c, hn, h2, hc⟩ | ⟨c, hn, -, hc⟩ := tick_cases { s with input := r, resp := .none } <;>
      rw [hc] at hu <;> cases hu
    · exact .inr (.inr (.inr (.inr (.inl ⟨a, r, h0, hl, hn, rfl⟩))))
    · exact .inr (.inr (.inr (.inr (.inr (.inl ⟨a, r, c, h0, hl, unheld hn, hn, h2, rfl⟩)))))
    · exact .inr (.inr (.inr (.inr (.inr (.inr ⟨a, r, c, h0, hl, unheld hn, hn, rfl⟩)))))

/-- On an idle block a legal access is performed at once (R45). -/
theorem step_access_idle {s : State} {a : Access} {rest : List Input} (hi : s.inflight = none)
    (hin : s.input = .access a :: rest) (hl : accessLegal a = true) :
    step s = .next (State.perform { s with input := rest, resp := .none } a) := by
  simp [step, cycle, hin, serve, hl, State.busy, hi, tickThenPerform, tick]

/-- An idle block latches what an accepted command would read, so executing the command in flight and executing it
on the registers give one state (R100). -/
theorem exec_accepted (i : Instr) (s : State) (h : s.inflight = none) (left : Nat) :
    exec i { s with inflight := some ⟨i, s.readF i.rs1, i.rs2.map s.readF, left⟩ } = exec i s := by
  rw [exec_eq_complete, exec_eq_complete, State.srcA_inflight rfl, State.srcB_inflight rfl, State.srcA_idle h,
    State.srcB_idle h]
  cases i <;> rfl

@[simp] theorem run_zero (s : State) : run 0 s = .next s := rfl

theorem run_succ_next {s t : State} (k : Nat) (h : step s = .next t) : run (k + 1) s = run k t := by
  simp [run, h]

end Sys2Proof.Machine
end

