-- ==== Sys2Proof/Tests/Slice0.lean ====
section
/-!
SUPPORT. The model's own tests: the checks of WellFormed, one command word per row of the opcode table written out field by
field (R65, R68), expected results from 95_test_vectors.md and the rules' examples, and for every statement with hypotheses a
state and operands that meet them.
-/

namespace Sys2Proof.Tests

set_option Elab.async false

open Sys2Proof.Machine Sys2Proof.Claims

/-! ### Well-formed and ill-formed fields of a command word (R70) -/

theorem test_wf_add : Command.wf ⟨some .add, 3, 1, 2, 0⟩ = true := by decide

theorem test_wf_rejects_reserved_opcode : Command.wf ⟨none, 3, 1, 2, 0⟩ = false := by decide

theorem test_wf_rejects_reserved_bits : Command.wf ⟨some .add, 3, 1, 2, 2⟩ = false := by decide

theorem test_wf_rejects_second_source_in_form_u : Command.wf ⟨some .neg, 1, 1, 1, 0⟩ = false := by decide

/-! ### Decoding: zero, rs2, rs1, rd, opc (R65), registers F3, F1 and, in form R, F2 -/

theorem test_decode_neg : decode 0b00000000000000000_000_001_011_000001 = .ok (.neg 3 1) := by decide

theorem test_decode_abs : decode 0b00000000000000000_000_001_011_000010 = .ok (.abs 3 1) := by decide

theorem test_decode_add : decode 0b00000000000000000_010_001_011_000011 = .ok (.add 3 1 2) := by decide

theorem test_decode_sub : decode 0b00000000000000000_010_001_011_000100 = .ok (.sub 3 1 2) := by decide

theorem test_decode_mul : decode 0b00000000000000000_010_001_011_000101 = .ok (.mul 3 1 2) := by decide

theorem test_decode_div : decode 0b00000000000000000_010_001_011_000110 = .ok (.div 3 1 2) := by decide

theorem test_decode_sqrt : decode 0b00000000000000000_000_001_011_000111 = .ok (.sqrt 3 1) := by decide

theorem test_decode_exp : decode 0b00000000000000000_000_001_011_001000 = .ok (.exp 3 1) := by decide

theorem test_decode_ln : decode 0b00000000000000000_000_001_011_001001 = .ok (.ln 3 1) := by decide

theorem test_decode_log2 : decode 0b00000000000000000_000_001_011_001010 = .ok (.log2 3 1) := by decide

theorem test_decode_log10 : decode 0b00000000000000000_000_001_011_001011 = .ok (.log10 3 1) := by decide

theorem test_decode_sin : decode 0b00000000000000000_000_001_011_001100 = .ok (.sin 3 1) := by decide

theorem test_decode_sinc : decode 0b00000000000000000_000_001_011_001101 = .ok (.sinc 3 1) := by decide

theorem test_decode_cosc : decode 0b00000000000000000_000_001_011_001110 = .ok (.cosc 3 1) := by decide

theorem test_decode_tanc : decode 0b00000000000000000_000_001_011_001111 = .ok (.tanc 3 1) := by decide

theorem test_decode_cfrac : decode 0b00000000000000000_000_001_011_010000 = .ok (.cfrac 3 1) := by decide

theorem test_decode_fromint : decode 0b00000000000000000_000_001_011_010001 = .ok (.fromint 3 1) := by decide

theorem test_decode_data : decode 0b00000000000000000_000_001_011_010010 = .ok (.data 3 1) := by decide

theorem test_decode_cls : decode 0b00000000000000000_000_001_011_010011 = .ok (.cls 3 1) := by decide

theorem test_decode_mkval : decode 0b00000000000000000_010_001_011_010100 = .ok (.mkval 3 1 2) := by decide

theorem test_decode_highest_registers : decode 0x00007FC3 = .ok (.add 7 7 7) := by decide

theorem test_decode_rejects_zero_word : decode 0x00000000 = .error .reservedOpcode := by decide

theorem test_decode_rejects_first_reserved : decode 0x00000015 = .error .reservedOpcode := by decide

theorem test_decode_rejects_bit_31 : decode 0x80000043 = .error .reservedBits := by decide

theorem test_decode_rejects_rs2_of_fromint : decode 0x00007FD1 = .error .secondSourceInFormU := by decide

theorem test_decode_table_word : decodeTableWord 32 0x000022C3 = some (.add 3 1 2) := by decide

theorem test_assembler_text : assemblerText (.add 3 1 2) = "ADD F3, F1, F2" := by decide

/-! ### Results, from 95_test_vectors.md section 2 -/

/-- An idle block with `F1 = a` and `F2 = b`. -/
def holding (a b : Word) : State := (State.reset.writeF 1 a).writeF 2 b

/-- The command leaves `r` in `F3` of the block with `F1 = a` and `F2 = b`. -/
def leaves (i : Instr) (a b r : Word) : Bool :=
  match exec i (holding a b) with
  | .next t => t.readF 3 == r && t.readF 1 == a && !t.busy
  | .fault _ => false
  | .refused _ => false

theorem test_neg_example : leaves (.neg 3 1) 0x00030000 0 0xFFFD0000 = true := by
  decide

theorem test_neg_most_negative : leaves (.neg 3 1) 0x80000000 0 0x80000000 = true := by
  decide

theorem test_abs_example : leaves (.abs 3 1) 0xFFFB8000 0 0x00048000 = true := by
  decide

theorem test_abs_minus_inf : leaves (.abs 3 1) 0x00000003 0 0x00000002 = true := by
  decide

theorem test_add_overflow_by_one : leaves (.add 3 1 2) 0x7FFFFFFC 0x00000004 0x00000002 = true := by
  decide

theorem test_add_tie_break : leaves (.add 3 1 2) 0x00000002 0x00000003 0x00000002 = true := by
  decide

theorem test_sub_example : leaves (.sub 3 1 2) 0x00020000 0x00060000 0xFFFC0000 = true := by
  decide

theorem test_sub_inherited_caveat : leaves (.sub 3 1 2) 0xFFFE0000 0x80000000 0x00000003 = true := by
  decide

theorem test_mul_tie_to_even : leaves (.mul 3 1 2) 0x0000000C 0x00010000 0x00000008 = true := by
  decide

theorem test_mul_inf_times_zero : leaves (.mul 3 1 2) 0x00000002 0x00000000 0x00000002 = true := by
  decide

theorem test_div_odd_rounding : leaves (.div 3 1 2) 0xFFFE0000 0x00060000 0xFFFF5554 = true := by
  decide

theorem test_div_infinite_divisor : leaves (.div 3 1 2) 0x00020000 0x00000002 0x00000001 = true := by
  decide

theorem test_sqrt_of_two : leaves (.sqrt 3 1) 0x00040000 0 0x0002D414 = true := by
  decide

theorem test_sqrt_of_maxv : leaves (.sqrt 3 1) 0x7FFFFFFC 0 0x01000000 = true := by
  decide

theorem test_exp_largest_finite : leaves (.exp 3 1) 0x00136878 0 0x7FFF580C = true := by
  decide

theorem test_exp_last_nonzero : leaves (.exp 3 1) 0xFFE9D1D0 0 0x00000004 = true := by
  decide

theorem test_ln_smallest_positive : leaves (.ln 3 1) 0x00000004 0 0xFFEB34A0 = true := by
  decide

theorem test_ln_minus_inf : leaves (.ln 3 1) 0x00000003 0 0x00000003 = true := by
  decide

theorem test_log2_of_ten : leaves (.log2 3 1) 0x00140000 0 0x0006A4D0 = true := by
  decide

theorem test_log2_of_maxv : leaves (.log2 3 1) 0x7FFFFFFC 0 0x001C0000 = true := by
  decide

theorem test_log10_of_three_halves : leaves (.log10 3 1) 0x00030000 0 0x00005A28 = true := by
  decide

theorem test_log10_negative : leaves (.log10 3 1) 0xFFFE0000 0 0x00000001 = true := by
  decide

theorem test_sin_example : leaves (.sin 3 1) 0x00020000 0 0x0001AF08 = true := by
  decide

theorem test_sin_of_minv : leaves (.sin 3 1) 0x80000000 0 0x00011EC8 = true := by
  decide

theorem test_sinc_example : leaves (.sinc 3 1) 0x00020000 0 0x0001AED4 = true := by
  decide +kernel

theorem test_sinc_of_maxv : leaves (.sinc 3 1) 0x7FFFFFFC 0 0xFFFEE150 = true := by
  decide +kernel

theorem test_cosc_of_two : leaves (.cosc 3 1) 0x00040000 0 0xFFFF2AF0 = true := by
  decide +kernel

theorem test_cosc_of_minv : leaves (.cosc 3 1) 0x80000000 0 0xFFFE57CC = true := by
  decide +kernel

theorem test_tanc_of_three_halves : leaves (.tanc 3 1) 0x00030000 0 0x001C33B0 = true := by
  decide +kernel

theorem test_tanc_just_above_quarter_turn : leaves (.tanc 3 1) 0x00032440 0 0x00000003 = true := by
  decide +kernel

theorem test_cfrac_of_minus_one : leaves (.cfrac 3 1) 0xFFFE0000 0 0x35D067C8 = true := by
  decide

theorem test_cfrac_of_nan : leaves (.cfrac 3 1) 0x00000001 0 0x00000000 = true := by
  decide

theorem test_fromint_smallest_exact : leaves (.fromint 3 1) 0xFFFFC000 0 0x80000000 = true := by
  decide

theorem test_fromint_wraps : leaves (.fromint 3 1) 0x7FFFFFFF 0 0xFFFE0000 = true := by
  decide

theorem test_data_example : leaves (.data 3 1) 0x00060002 0 0x00060000 = true := by
  decide

theorem test_data_all_ones : leaves (.data 3 1) 0xFFFFFFFF 0 0xFFFFFFFC = true := by
  decide

theorem test_cls_sign_of_minus_inf : leaves (.cls 3 1) 0x80000003 0 0x0000000C = true := by
  decide

theorem test_cls_of_minv : leaves (.cls 3 1) 0x80000000 0 0x00000018 = true := by
  decide

theorem test_mkval_example : leaves (.mkval 3 1 2) 0x00020000 0x00000003 0x00020003 = true := by
  decide

theorem test_mkval_status_from_second : leaves (.mkval 3 1 2) 0xFFFFFFFF 0x00000000 0xFFFFFFFC = true := by
  decide

/-! ### The traces the spec works out (R204, R206, 95_test_vectors.md 2.21) -/

theorem test_trace_sqrt : newton 2147483648 1 65536 = 49152 ∧ newton 2147483648 8 65536 = 46340 ∧
    sqrtRef 65536 = 46341 := by decide

theorem test_trace_exp : expHalvings 32768 = 1 ∧ (expSeries 134217728 10).2 = 442575245 ∧ expRef 32768 = 89073 := by
  decide

theorem test_trace_ln : logExponent 98304 = 17 ∧ logMantissa 98304 = -67108864 ∧ logRef .ln 98304 = 36031 := by
  decide

theorem test_trace_sin : circleFraction 32768 = 170891319 ∧ sinPoly 170891319 = 225986222 := by decide

theorem test_trace_cordic : cordic 170891319 = ⟨145036282, 225880657, -11⟩ ∧
    cordicFrom 0 ⟨cordicSeed, 0, 170891319⟩ (atanTable.take 2) = ⟨81504110, 244512328, -42559760⟩ := by
  decide +kernel

/-! ### Witnesses: for each statement with hypotheses, a state and operands that meet them all, clause by clause -/

/-- An idle block with `F1 = 1.5`, `F2 = 1.0`, `ILL = 1` and the given inputs. -/
def idleWith (inp : List Input) : State := { holding 0x00030000 0x00020000 with ill := true, input := inp }

/-- The same block with `ADD F3, F1, F2` in flight, `left` cycles to go. -/
def busyWith (left : Nat) (inp : List Input) : State :=
  { idleWith inp with cmdr := 0x000022C3, inflight := some ⟨.add 3 1 2, 0x00030000, some 0x00020000, left⟩ }

/-- A 32-bit write. -/
def wr (off : BitVec 6) (v : Word) : Input := .access (.write .bits32 off v)

/-- A 32-bit read. -/
def rd (off : BitVec 6) : Input := .access (.read .bits32 off)

theorem witness_EncodeOfDecode : decode 0x00007FC3 = .ok (.add 7 7 7) := by decide

theorem witness_LegalWords : legal 0x000022C3 = true ∧ legal 0x00000000 = false ∧ legal 0x00000015 = false ∧
    legal 0x0000003F = false ∧ legal 0x00008003 = false ∧ legal 0x80000003 = false ∧ legal 0x00001001 = false ∧
    legal 0x00007001 = false := by decide

theorem witness_OwnRowSelects : (⟨.neg, 0x00000001, 0xFFFFF03F⟩ : OpcodeRow) ∈ opcodeMap ∧
    (⟨.mkval, 0x00000014, 0xFFFF803F⟩ : OpcodeRow) ∈ opcodeMap := by decide

theorem witness_StepAcceptsLegalWord : (idleWith [wr 0x20 0x000022C3]).inflight = none ∧
    nextWrite (idleWith [wr 0x20 0x000022C3]) 0x20 0x000022C3 [] ∧ decode 0x000022C3 = .ok (.add 3 1 2) :=
  ⟨rfl, rfl, by decide⟩

theorem witness_IllegalCommandSetsIll : (idleWith [wr 0x20 0x00000015]).inflight = none ∧
    nextWrite (idleWith [wr 0x20 0x00000015]) 0x20 0x00000015 [] ∧ legal 0x00000015 = false :=
  ⟨rfl, rfl, by decide⟩

/-- Clause 1 at `n = 0` and at `n = LAT(op) - 1`, clause 2 at `n = LAT(op)`; the host's list fits every `n`. -/
theorem witness_CommandLifecycle : (∀ n : Nat,
      (idleWith (wr 0x20 0x000022C3 :: (List.replicate n .idle ++ [rd 0x24]))).inflight = none ∧
      nextWrite (idleWith (wr 0x20 0x000022C3 :: (List.replicate n .idle ++ [rd 0x24]))) 0x20 0x000022C3
        (List.replicate n .idle ++ [rd 0x24])) ∧
    decode 0x000022C3 = .ok (.add 3 1 2) ∧ 0 < Config.lat (Instr.add 3 1 2).opcode ∧
    Config.lat (Instr.add 3 1 2).opcode - 1 < Config.lat (Instr.add 3 1 2).opcode ∧
    ∃ n, n = Config.lat (Instr.add 3 1 2).opcode :=
  ⟨fun _ => ⟨rfl, rfl⟩, by decide, Nat.succ_pos _, Nat.lt_succ_self _, _, rfl⟩

/-- The block has nothing more to do, and the host's next access is held. -/
theorem witness_CommandIsAtomic : decode 0x000022C3 = .ok (.add 3 1 2) ∧
    (idleWith [wr 0x20 0x000022C3]).inflight = none ∧ nextWrite (idleWith [wr 0x20 0x000022C3]) 0x20 0x000022C3 [] ∧
    (idleWith [wr 0x20 0x000022C3, rd 0x0C]).inflight = none ∧
    nextWrite (idleWith [wr 0x20 0x000022C3, rd 0x0C]) 0x20 0x000022C3 [rd 0x0C] ∧
    [rd 0x0C] = .access (.read .bits32 0x0C) :: [] ∧ accessLegal (.read .bits32 0x0C) = true ∧
    heldWhileBusy (Access.read .bits32 0x0C).off = true :=
  ⟨by decide, rfl, rfl, rfl, rfl, rfl, by decide, by decide⟩

theorem witness_PlacedCommandRuns : (0x00007FC3 : Nat) < 2 ^ 32 ∧
    decode (BitVec.ofNat 32 0x00007FC3) = .ok (.add 7 7 7) := by decide

/-- The first and last held offsets, and the first that is not held. -/
theorem witness_HeldAccess : heldWhileBusy 0x00 = true ∧ heldWhileBusy 0x20 = true ∧ heldWhileBusy 0x24 = false ∧
    (busyWith 5 [rd 0x0C]).inflight = some ⟨.add 3 1 2, 0x00030000, some 0x00020000, 5⟩ ∧
    (busyWith 5 [rd 0x0C]).input = .access (.read .bits32 0x0C) :: [] ∧
    (busyWith 1 [wr 0x20 0x00000281]).input = .access (.write .bits32 0x20 0x00000281) :: [] ∧
    accessLegal (.read .bits32 0x0C) = true ∧ accessLegal (.write .bits32 0x20 0x00000281) = true :=
  ⟨by decide, by decide, by decide, rfl, rfl, rfl, by decide, by decide⟩

/-- Two cycles to go and one to go. -/
theorem witness_UnheldAccess : (busyWith 2 [rd 0x24]).inflight = some ⟨.add 3 1 2, 0x00030000, some 0x00020000, 2⟩ ∧
    (busyWith 1 [rd 0x24]).inflight = some ⟨.add 3 1 2, 0x00030000, some 0x00020000, 1⟩ ∧
    (∀ n, (busyWith n [rd 0x24]).input = .access (.read .bits32 0x24) :: []) ∧
    accessLegal (.read .bits32 0x24) = true ∧ heldWhileBusy (Access.read .bits32 0x24).off = false :=
  ⟨rfl, rfl, fun _ => rfl, by decide, by decide⟩

/-- A wrong width, a wrong alignment, and a legal access. -/
theorem witness_BusErrorExactly :
    step (idleWith [.access (.read .bits16 0x20)]) = .fault (.busError 0x20) ∧
    step (busyWith 3 [.access (.write .bits32 0x3D 0)]) = .fault (.busError 0x3D) ∧
    step (idleWith [rd 0x3C]) = .next { idleWith [] with resp := .data 0 } :=
  ⟨rfl, rfl, rfl⟩

/-- The offsets where the clauses begin and end. -/
theorem witness_WindowReads (off : BitVec 6) : (idleWith [rd off]).inflight = none ∧
    nextRead (idleWith [rd off]) off [] ∧ (0x00#6).toNat = 4 * (0#3).toNat ∧ (0x1C#6).toNat = 4 * (7#3).toNat ∧
    (0x20#6).toNat % 4 = 0 ∧ (0x24#6).toNat % 4 = 0 ∧ (0x28#6).toNat % 4 = 0 ∧ 0x28 ≤ (0x28#6).toNat ∧
    (0x3C#6).toNat % 4 = 0 ∧ 0x28 ≤ (0x3C#6).toNat :=
  ⟨rfl, rfl, by decide⟩

theorem witness_WindowWrites (off : BitVec 6) (v : Word) : (idleWith [wr off v]).inflight = none ∧
    nextWrite (idleWith [wr off v]) off v [] ∧ (0x00#6).toNat = 4 * (0#3).toNat ∧ (0x1C#6).toNat = 4 * (7#3).toNat ∧
    (0x24#6).toNat % 4 = 0 ∧ (0x28#6).toNat % 4 = 0 ∧ 0x28 ≤ (0x28#6).toNat ∧
    (0x3C#6).toNat % 4 = 0 ∧ 0x28 ≤ (0x3C#6).toNat :=
  ⟨rfl, rfl, by decide⟩

/-- A written bit 1 of 1 and of 0; `BUSY` and `ILL` both set. -/
theorem witness_StatusRegister : (0x00000002 : Word).getLsbD 1 = true ∧ (0x00000001 : Word).getLsbD 1 = false ∧
    (busyWith 1 []).statusWord = 0x00000003 := by decide

theorem witness_HostWriteThenRead : (idleWith [scriptWR 1 7, scriptRD 1]).inflight = none ∧
    (idleWith [scriptWR 1 7, scriptRD 1]).input = scriptWR 1 7 :: scriptRD 1 :: [] ∧
    (idleWith [scriptWR 1 7, scriptRD 2]).input = scriptWR 1 7 :: scriptRD 2 :: [] :=
  ⟨rfl, rfl, rfl⟩

theorem witness_ResetCycle : (busyWith 3 [.rst, rd 0x24]).input = .rst :: [rd 0x24] := rfl

theorem witness_IdleBlock : (idleWith []).inflight = none ∧ (idleWith []).input = [] ∧
    (idleWith [.idle]).inflight = none ∧ (idleWith [.idle]).input = .idle :: [] :=
  ⟨rfl, rfl, rfl, rfl⟩

/-- A consistent block with a command in flight, and one that waits a cycle and one that completes. -/
theorem witness_InFlightStaysConsistent : (busyWith 1 [.idle]).Inv ∧
    step (busyWith 1 [.idle]) = .next { (idleWith []).writeF 3 0x00050000 with cmdr := 0x000022C3 } := by
  refine ⟨?_, rfl⟩
  intro c h
  obtain rfl : (⟨.add 3 1 2, 0x00030000, some 0x00020000, 1⟩ : InFlight) = c := Option.some.inj h
  exact ⟨by decide, by decide, by decide, Nat.le_refl 1, Nat.succ_pos _⟩

/-- `ILL` cleared by a reset cycle and by a write, and set by an illegal word. -/
theorem witness_IllIsSticky : step (idleWith [.rst]) = .next State.reset ∧ (idleWith [.rst]).ill = true ∧
    State.reset.ill = false ∧
    step (idleWith [scriptCLR]) = .next { idleWith [] with ill := false, resp := .done } ∧
    step { idleWith [wr 0x20 0x15] with ill := false } = .next { idleWith [] with cmdr := 0x15, resp := .done } :=
  ⟨rfl, rfl, rfl, rfl, rfl⟩

/-- `CMDR` changed by a reset cycle and by a write of it. -/
theorem witness_CmdrChanges : step (busyWith 4 [.rst]) = .next State.reset ∧
    State.reset.cmdr ≠ (busyWith 4 [.rst]).cmdr ∧
    step (idleWith [wr 0x20 0x15]) = .next { idleWith [] with cmdr := 0x15, resp := .done } ∧
    (0x15 : Word) ≠ (idleWith [wr 0x20 0x15]).cmdr :=
  ⟨rfl, by decide, rfl, by decide⟩

/-- A register changed by a reset cycle, by the host and by a completion. -/
theorem witness_RegisterChanges : step (idleWith [.rst]) = .next State.reset ∧
    State.reset.readF 1 ≠ (idleWith [.rst]).readF 1 ∧
    step (idleWith [wr 0x1C 5]) = .next { (idleWith []).writeF 7 5 with resp := .done } ∧
    ((idleWith []).writeF 7 5).readF 7 ≠ (idleWith [wr 0x1C 5]).readF 7 ∧
    step (busyWith 9 []) = .next { (idleWith []).writeF 3 0x00050000 with cmdr := 0x000022C3 } ∧
    ((idleWith []).writeF 3 0x00050000).readF 3 ≠ (busyWith 9 []).readF 3 :=
  ⟨rfl, by decide, rfl, by decide, rfl, by decide⟩

/-- Two states that differ in `F5`, which was never written, and a step that reads `F1` only. -/
theorem witness_UnwrittenRegistersCannotMatter :
    (idleWith [rd 0x04]).agreeOnWritten { idleWith [rd 0x04] with f := (idleWith []).f.set 5 9 } ∧
    (idleWith [rd 0x04]).safeNext = true ∧
    step (idleWith [rd 0x04]) = .next { idleWith [] with resp := .data 0x00030000 } := by
  refine ⟨⟨rfl, rfl, rfl, rfl, rfl, rfl, ?_⟩, by decide, rfl⟩
  decide

/-- The premise is not always met: a read of a register that nothing has written. -/
theorem test_unsafe_read_of_unwritten : (idleWith [rd 0x14]).safeNext = false := by decide

theorem witness_OperandsOfCommand : (idleWith []).inflight = none ∧
    (busyWith 2 []).inflight = some ⟨.add 3 1 2, 0x00030000, some 0x00020000, 2⟩ ∧
    (⟨.add 3 1 2, 0x00030000, some 0x00020000, 2⟩ : InFlight).b = some 0x00020000 :=
  ⟨rfl, rfl, rfl⟩

/-- An idle block and one with the command in flight give it the same operands. -/
theorem witness_ResultIsPure : (idleWith []).srcA (Instr.add 3 1 2).rs1 = (busyWith 2 []).srcA (Instr.add 3 1 2).rs1 ∧
    (Instr.add 3 1 2).rs2 = some 2 ∧ (idleWith []).srcB 2 = (busyWith 2 []).srcB 2 := by decide

/-- One operand word for each branch of the results' case splits, at the ends of the ranges. -/
theorem witness_operand_classes : isNaN 0x00000001 = true ∧ isPInf 0x00000002 = true ∧ isNInf 0x00000003 = true ∧
    isNormal 0x80000000 = true ∧ mag 0x80000000 = -2 ^ 29 ∧ mag 0x7FFFFFFC = 2 ^ 29 - 1 ∧ mag 0x00000000 = 0 ∧
    isNegN 0xFFFFFFFC = true ∧ mag 0x00200000 = 2 ^ 19 ∧ mag 0xFFE00000 = -2 ^ 19 ∧ mag 0x001FFFFC = 2 ^ 19 - 1 := by
  decide

/-- The first operand in the range whose exponential does not fit (95_test_vectors.md 2.12 row 9). -/
theorem witness_ExpResult : mag 0x0013687C < 2 ^ 19 ∧ expRef (mag 0x0013687C) > 2 ^ 29 - 1 := by decide +kernel

/-- Angles on the two sides of a quarter turn, an overflowing quotient and a zero cosine (95_test_vectors.md 2.20 rows 7 to 9). -/
theorem witness_TancResult : circleFraction (mag 0x00032438) % 2 ^ 29 < 2 ^ 28 ∧
    circleFraction (mag 0x00032440) % 2 ^ 29 ≥ 2 ^ 28 ∧ tancFn (mag 0x00032438) = .posInf ∧
    rne (cordic (tanReduce (circleFraction (mag 0x00032440)))).x 13 = 0 ∧ tancFn (mag 0x00032440) = .negInf := by
  decide +kernel

/-- The ends of the range in which `FROMINT` is exact. -/
theorem witness_FromintResult : (holding 0xFFFFC000 0).srcA 1 = 0xFFFFC000 ∧ (0xFFFFC000 : Word).toInt = -16384 ∧
    (holding 0x00003FFF 0).srcA 1 = 0x00003FFF ∧ (0x00003FFF : Word).toInt = 16383 := by decide

theorem witness_MkvalResult : (idleWith []).inflight = none := rfl

/-- A sum above the range, one below it, and one in it. -/
theorem witness_AddOverflowBySignBits : opMag 0x7FFFFFFC + opMag 0x00000004 > 2 ^ 29 - 1 ∧
    opMag 0x80000000 + opMag 0xFFFFFFFC < -2 ^ 29 ∧ fits (opMag 0x7FFFFFFC + opMag 0x00000000) = true ∧
    normalW (opMag 0x7FFFFFFC) = 0x7FFFFFFC := by decide

theorem witness_AddMulCommute : (idleWith []).inflight = none := rfl

/-- A finite product that overflows, and a zero divisor. -/
theorem witness_InfSignRulesAgree : isInf 0x7FFFFFFC = false ∧ isInf 0x80000000 = false ∧ isInf 0x00000000 = false ∧
    fits (rne (opMag 0x7FFFFFFC * opMag 0x80000000) 15) = false ∧ opMag 0x00000000 = 0 := by decide

/-- A tie. -/
theorem witness_RneIsNearestEven : |2 * ((3 : Int) - rne 3 1 * 2 ^ 1)| = 2 ^ 1 := by decide

/-- A tie with a negative divisor. -/
theorem witness_RneDivIsNearestEven : (-2 : Int) ≠ 0 ∧ |2 * ((3 : Int) - rneDiv 3 (-2) * -2)| = |(-2 : Int)| := by decide

theorem witness_RoundingIsOdd : (-2 : Int) ≠ 0 := by decide

/-- The largest operand, and a root that is not 0. -/
theorem witness_SqrtCorrectlyRounded : 2 ^ 29 - 1 < 2 ^ 29 ∧ 0 < sqrtRef 1 := by decide

theorem witness_LogResultsRepresentable : 1 ≤ 1 ∧ 1 < 2 ^ 29 ∧ 1 ≤ 2 ^ 29 - 1 ∧ 2 ^ 29 - 1 < 2 ^ 29 := by decide

theorem witness_CordicConverges : (-2 ^ 28 : Int) ≤ -2 ^ 28 ∧ (-2 ^ 28 : Int) ≤ 2 ^ 28 ∧ (2 ^ 28 : Int) ≤ 2 ^ 28 := by
  decide

/-- A NaN as first and as second operand. -/
theorem witness_NaNPropagates : propagatesNaN (.add 3 1 2) = true ∧ isNaN ((holding 1 0).srcA 1) = true ∧
    (Instr.add 3 1 2).rs2 = some 2 ∧ isNaN ((holding 0 1).srcB 2) = true := by decide

/-- A result that is not Normal. -/
theorem witness_SpecialResultsAreCanonical : propagatesNaN (.add 3 1 2) = true ∧
    exec (.add 3 1 2) (holding 6 0) = .next ((holding 6 0).writeF 3 2) ∧
    isNormal (((holding 6 0).writeF 3 2).readF 3) = false :=
  ⟨by decide, rfl, by decide⟩

/-- Two spellings of +Inf, and equal Normal words. -/
theorem witness_SpecialMagnitudesIgnored : readsMagnitude (.add 3 1 2) = true ∧ readsMagnitude (.cfrac 3 1) = true ∧
    sameReading ((holding 6 4).srcA 1) ((holding 2 4).srcA 1) ∧
    (∀ r, (Instr.add 3 1 2).rs2 = some r → sameReading ((holding 6 4).srcB r) ((holding 2 4).srcB r)) := by
  refine ⟨by decide, by decide, ⟨by decide, by decide⟩, ?_⟩
  intro r h
  obtain rfl : (2 : Reg) = r := Option.some.inj h
  exact ⟨by decide, by decide⟩

/-- The last byte of the window. -/
theorem witness_ByteLanes : (0x3C#6).toNat % 4 = 0 ∧ (0x3F#6).toNat = (0x3C#6).toNat + (3 : Fin 4).val ∧
    (0x00#6).toNat = (0x00#6).toNat + (0 : Fin 4).val := by decide

end Sys2Proof.Tests
end

section
/-!
PROOFS. The two roundings of R9 and R10 give the nearest integer, ties to even.
The floor quotient leaves a remainder in `[0, d)`, so the distance to `q * d` is that remainder and the distance to
`(q + 1) * d` is what it lacks of `d`; the branch taken is the shorter of the two. `rne` is the same rounding at `d = 2^n`.
-/

namespace Sys2Proof.Machine

/-- `q` is the rational `n / d` rounded to the nearest integer, and the even one on a tie (R9, R10). -/
def IsNearestEven (n d q : Int) : Prop :=
  |2 * (n - q * d)| ≤ |d| ∧ (|2 * (n - q * d)| = |d| → q % 2 = 0)

theorem IsNearestEven.of_neg_neg {n d q : Int} (h : IsNearestEven (-n) (-d) q) : IsNearestEven n d q := by
  have hdist : |2 * (-n - q * -d)| = |2 * (n - q * d)| := by rw [← abs_neg]; ring_nf
  rwa [IsNearestEven, hdist, abs_neg] at h

theorem sub_ediv_mul_eq_emod (n d : Int) : n - n / d * d = n % d := by rw [Int.emod_def, mul_comm]

/-- R10 for a positive divisor, with the remainder written as one. -/
theorem rneDivPos_eq (n d : Int) :
    rneDivPos n d = if 2 * (n % d) > d ∨ (2 * (n % d) = d ∧ n / d % 2 = 1) then n / d + 1 else n / d := by
  simp only [rneDivPos, sub_ediv_mul_eq_emod]

theorem rneDivPos_isNearestEven (n : Int) {d : Int} (hd : 0 < d) : IsNearestEven n d (rneDivPos n d) := by
  have hnonneg : 0 ≤ n % d := Int.emod_nonneg n hd.ne'
  have hlt : n % d < d := Int.emod_lt_of_pos n hd
  have hdown : n - n / d * d = n % d := sub_ediv_mul_eq_emod n d
  have hup : n - (n / d + 1) * d = n % d - d := by rw [add_one_mul, ← sub_sub, hdown]
  rw [rneDivPos_eq, IsNearestEven, abs_of_pos hd]
  split
  case isTrue hcond =>
    rw [hup, abs_of_nonpos (by omega)]
    omega
  case isFalse hcond =>
    rw [hdown, abs_of_nonneg (by omega)]
    omega

theorem rneDiv_isNearestEven (n : Int) {d : Int} (hd : d ≠ 0) : IsNearestEven n d (rneDiv n d) := by
  unfold rneDiv
  split
  case isTrue hneg => exact (rneDivPos_isNearestEven (-n) (by omega)).of_neg_neg
  case isFalse hneg => exact rneDivPos_isNearestEven n (by omega)

/-- The shift's "remainder against half of `2^n`" is the division's "twice the remainder against `2^n`". -/
theorem rne_eq_rneDivPos (x : Int) (n : Nat) : rne x n = rneDivPos x (2 ^ n) := by
  cases n with
  | zero => simp [rne, rneDivPos_eq]
  | succ k =>
    rw [rneDivPos_eq]
    simp only [rne, asr, sub_ediv_mul_eq_emod]
    have hhalf : (2 : Int) ^ (k + 1) = 2 * 2 ^ k := pow_succ' 2 k
    refine if_congr ?_ rfl rfl
    omega

theorem rne_isNearestEven (x : Int) (n : Nat) : IsNearestEven x (2 ^ n) (rne x n) := by
  rw [rne_eq_rneDivPos]
  exact rneDivPos_isNearestEven x (by positivity)

/-- Settles O50: `rne` is the rounded division by the positive number `2^n`. -/
theorem rneIsNearestEven : Obligations.RneIsNearestEven := by
  unfold Obligations.RneIsNearestEven
  intro x n
  have h := rne_isNearestEven x n
  rwa [IsNearestEven, abs_of_pos (by positivity : (0 : Int) < 2 ^ n)] at h

/-- Settles O51: a negative divisor is turned, with its dividend, into the positive case. -/
theorem rneDivIsNearestEven : Obligations.RneDivIsNearestEven := by
  unfold Obligations.RneDivIsNearestEven
  intro n d hd
  exact rneDiv_isNearestEven n hd

end Sys2Proof.Machine
end

section
/-!
PROOFS. `STATUS` and its sticky bit `ILL` (R24, R26).
Of the accesses the host can make, a write of `STATUS` with bit 1 set clears `ILL` and a write of an illegal word to `CMDR` sets
it; every other leaves it. A write of `CMDR` is held while a command is in flight, so only an idle block sets `ILL`.
-/

namespace Sys2Proof.Machine

open Sys2Proof.Claims

/-! ### The word of `STATUS` -/

/-- The bits of the word, from its fields `0#30`, `ILL` and `BUSY`. -/
theorem State.statusWord_getLsbD (s : State) (k : Nat) :
    s.statusWord.getLsbD k = if k = 0 then s.busy else if k = 1 then s.ill else false := by
  have hbusy : s.statusWord.getLsbD k =
      if k < 1 then (BitVec.ofBool s.busy).getLsbD k else (0#30 ++ BitVec.ofBool s.ill).getLsbD (k - 1) :=
    BitVec.getLsbD_append
  rw [hbusy, BitVec.getLsbD_append]
  match k with
  | 0 => simp
  | 1 => simp
  | k + 2 => simp

theorem State.windowWord_status (s : State) : s.windowWord 0x24 = s.statusWord := by
  simp [State.windowWord]

theorem State.windowWrite_status (s : State) (v : Word) : s.windowWrite 0x24 v = s.writeStatus v := by
  simp [State.windowWrite]

theorem State.windowWrite_cmdr (s : State) (w : Word) : s.windowWrite 0x20 w = s.submit w := by
  simp [State.windowWrite]

theorem accessLegal_write_cmdr (w : Word) : accessLegal (.write .bits32 0x20 w) = true := by
  simp [accessLegal, Access.size, Access.off]

theorem State.writeStatus_eq (s : State) (v : Word) :
    s.writeStatus v = { s with ill := if v.getLsbD 1 = true then false else s.ill } := by
  unfold State.writeStatus
  cases v.getLsbD 1 <;> simp

/-- Settles O16: the bits of the word, and the window's two accesses to it. -/
theorem statusRegister : Obligations.StatusRegister := by
  unfold Obligations.StatusRegister
  refine ⟨by decide, fun s => ⟨s.statusWord_getLsbD 0, s.statusWord_getLsbD 1, fun k hk => ?_, ?_, fun v => ?_⟩⟩
  · rw [s.statusWord_getLsbD, if_neg (by omega), if_neg (by omega)]
  · rw [State.perform_read, State.windowWord_status]
  · rw [State.perform_write, State.windowWrite_status, State.writeStatus_eq]

/-! ### What changes `ILL` -/

theorem legal_eq_false_iff {w : Word} : legal w = false ↔ ∃ e, decode w = .error e := by
  unfold legal
  cases decode w <;> simp [Except.isOk, Except.toBool]

theorem State.submit_of_illegal (s : State) {w : Word} (hw : legal w = false) :
    s.submit w = { s with cmdr := w, ill := true } := by
  obtain ⟨e, he⟩ := legal_eq_false_iff.1 hw
  simp [State.submit, he, State.illegalCommand]

theorem State.submit_ill_of_legal (s : State) {w : Word} (hw : legal w = true) : (s.submit w).ill = s.ill := by
  obtain ⟨i, -, h⟩ | ⟨e, he, -⟩ := s.submit_cases w
  · simp [h]
  · simp [legal_eq_false_iff.2 ⟨e, he⟩] at hw

/-- A performed access keeps `ILL`, clears it by bit 1 of a write to `STATUS`, or sets it by an illegal word (R24, R26, R241). -/
theorem State.perform_ill_cases (s : State) {a : Access} (hl : accessLegal a = true) :
    (s.perform a).ill = s.ill ∨
    (∃ v, a = .write .bits32 0x24 v ∧ v.getLsbD 1 = true ∧ (s.perform a).ill = false) ∨
    (∃ w, a = .write .bits32 0x20 w ∧ legal w = false ∧
      s.perform a = { s with cmdr := w, ill := true, resp := .done }) := by
  obtain ⟨r, h⟩ | ⟨v, ha, h⟩ | ⟨w, ha, h⟩ | ⟨off, i, v, -, -, h⟩ := s.perform_cases hl
  · exact .inl (by rw [h])
  · rw [State.writeStatus_eq] at h
    by_cases hv : v.getLsbD 1 = true
    · exact .inr (.inl ⟨v, ha, hv, by rw [h, if_pos hv]⟩)
    · exact .inl (by rw [h, if_neg hv])
  · cases hw : legal w
    · exact .inr (.inr ⟨w, ha, hw, by rw [h, s.submit_of_illegal hw]⟩)
    · exact .inl (by simp [h, s.submit_ill_of_legal hw])
  · exact .inl (by simp [h])

/-- An access that is not held while a command is in flight is no write of `CMDR`, and so cannot set `ILL` (R46). -/
theorem State.perform_ill_cases_of_unheld (s : State) {a : Access} (hl : accessLegal a = true)
    (hu : heldWhileBusy a.off = false) :
    (s.perform a).ill = s.ill ∨
    (∃ v, a = .write .bits32 0x24 v ∧ v.getLsbD 1 = true ∧ (s.perform a).ill = false) := by
  obtain h | h | ⟨w, rfl, -, -⟩ := s.perform_ill_cases hl
  · exact .inl h
  · exact .inr h
  · simp [Access.off, heldWhileBusy] at hu

@[simp] theorem completed_ill (s : State) (c : InFlight) : (completed s c).ill = s.ill := rfl

/-- A step keeps `ILL`, clears it by a reset cycle or by bit 1 of a write to `STATUS`, or sets it on an idle block by a write
of an illegal word to `CMDR` (R24, R26, R241, R260). -/
theorem step_ill_cases {s t : State} (h : step s = .next t) :
    t.ill = s.ill ∨
    (∃ rest, s.input = .rst :: rest) ∧ t.ill = false ∨
    (∃ v rest, nextWrite s 0x24 v rest ∧ v.getLsbD 1 = true) ∧ t.ill = false ∨
    (s.inflight = none ∧ ∃ w rest, nextWrite s 0x20 w rest ∧ legal w = false ∧
      t = { s with cmdr := w, ill := true, input := rest, resp := .done }) := by
  have unheld {a rest} (u : State) (hin : s.input = .access a :: rest) (hl : accessLegal a = true)
      (hu : heldWhileBusy a.off = false) (hill : u.ill = s.ill) : (u.perform a).ill = s.ill ∨
      (∃ v rest, nextWrite s 0x24 v rest ∧ v.getLsbD 1 = true) ∧ (u.perform a).ill = false := by
    obtain hk | ⟨v, rfl, hv, hc⟩ := u.perform_ill_cases_of_unheld hl hu
    · exact .inl (hk.trans hill)
    · exact .inr ⟨⟨v, rest, hin, hv⟩, hc⟩
  obtain ⟨rest, hin, rfl⟩ | ⟨_, -, rfl⟩ | ⟨c, _, -, -, rfl⟩ | ⟨c, _, -, rfl⟩ | ⟨a, rest, hin, hl, hidle, rfl⟩ |
    ⟨a, rest, c, hin, hl, hu, -, -, rfl⟩ | ⟨a, rest, c, hin, hl, hu, -, rfl⟩ := step_next_cases h
  · exact .inr (.inl ⟨⟨rest, hin⟩, State.resetCycle_ill _⟩)
  · exact .inl rfl
  · exact .inl rfl
  · exact .inl (completed_ill _ c)
  · obtain hk | ⟨v, rfl, hv, hc⟩ | ⟨w, rfl, hw, ht⟩ :=
      State.perform_ill_cases { s with input := rest, resp := .none } hl
    · exact .inl hk
    · exact .inr (.inr (.inl ⟨⟨v, rest, hin, hv⟩, hc⟩))
    · exact .inr (.inr (.inr ⟨hidle, w, rest, hin, hw, ht⟩))
  · exact (unheld _ hin hl hu (by rfl)).imp_right (.inr ∘ .inl)
  · exact (unheld _ hin hl hu (by rfl)).imp_right (.inr ∘ .inl)

/-- On an idle block an illegal word written to `CMDR` is stored and sets `ILL` (R241). -/
theorem step_illegal_idle {s : State} {w : Word} {rest : List Input} (hidle : s.inflight = none)
    (hin : nextWrite s 0x20 w rest) (hw : legal w = false) :
    step s = .next { s with cmdr := w, ill := true, input := rest, resp := .done } := by
  rw [step_access_idle hidle hin (accessLegal_write_cmdr w), State.perform_write, State.windowWrite_cmdr,
    State.submit_of_illegal _ hw]

/-- Settles O23: of the four things a step can do to `ILL`, the two that clear it and the one that sets it. -/
theorem illIsSticky : Obligations.IllIsSticky := by
  unfold Obligations.IllIsSticky
  intro s t h
  refine ⟨fun hs ht => ?_, fun hs ht => ?_, fun hidle w rest hin hw => ?_⟩
  · obtain hk | ⟨hrst, -⟩ | ⟨hclr, -⟩ | ⟨-, w, rest, -, -, rfl⟩ := step_ill_cases h
    · simp [hk, hs] at ht
    · exact .inl hrst
    · exact .inr hclr
    · simp at ht
  · obtain hk | ⟨-, hc⟩ | ⟨-, hc⟩ | hset := step_ill_cases h
    · simp [hk, hs] at ht
    · simp [hc] at ht
    · simp [hc] at ht
    · exact hset
  · rw [step_illegal_idle hidle hin hw] at h
    cases h
    rfl

end Sys2Proof.Machine
end

section
/-!
PROOFS. The bus error is the one way a step can fail to answer a next state (R44, R240, R242).
A completion and a clock cycle never fail, since a command never does, so what is left is the check of width and alignment; it
stands before the hold, and so does not look at whether a command is in flight (R245).
-/

namespace Sys2Proof.Machine

open Sys2Proof.Claims

/-- An illegal access is answered by the bus error of its offset, on an idle block and on a busy one (R44, R245). -/
theorem step_illegal_access {s : State} {a : Access} {rest : List Input} (hin : s.input = .access a :: rest)
    (hl : accessLegal a = false) : step s = .fault (.busError a.off) := by
  simp [step, cycle, hin, serve, hl]

/-- A step answers a next state, or it is the bus error of an illegal access (R44, R242). -/
theorem step_next_or_busError (s : State) :
    (∃ t, step s = .next t) ∨
    (∃ a rest, s.input = .access a :: rest ∧ accessLegal a = false ∧ step s = .fault (.busError a.off)) := by
  obtain ⟨-, hs⟩ | ⟨_, -, hs⟩ | ⟨rest, -, hs⟩ | hbus | ⟨a, rest, -, -, -, hs⟩ := step_cases s
  · obtain ⟨-, hc⟩ | ⟨_, -, hc⟩ := completeInFlight_cases { s with resp := .none } <;> exact .inl ⟨_, hs.trans hc⟩
  · exact .inl ⟨_, hs⟩
  · obtain ⟨-, hc⟩ | ⟨_, -, -, hc⟩ | ⟨_, -, -, hc⟩ := tick_cases { s with input := rest, resp := .none } <;>
      exact .inl ⟨_, hs.trans hc⟩
  · exact .inr hbus
  · obtain ⟨_, -, hp⟩ := tickThenPerform_cases a { s with input := rest, resp := .none }
    exact .inl ⟨_, hs.trans hp⟩

theorem step_fault_iff (s : State) (e : Fault) : step s = .fault e ↔
    ∃ a rest, s.input = .access a :: rest ∧ accessLegal a = false ∧ e = .busError a.off := by
  constructor
  · intro he
    obtain ⟨t, hs⟩ | ⟨a, rest, hin, hl, hs⟩ := step_next_or_busError s
    · simp [hs] at he
    · exact ⟨a, rest, hin, hl, Host.Outcome.fault.inj (he.symm.trans hs)⟩
  · rintro ⟨a, rest, hin, hl, rfl⟩
    exact step_illegal_access hin hl

theorem step_ne_refused (s : State) (e : Refusal) : step s ≠ .refused e := by
  obtain ⟨t, hs⟩ | ⟨a, rest, -, -, hs⟩ := step_next_or_busError s <;> simp [hs]

/-- Settles O13: a step faults exactly on an illegal access, which is one of another width or at no multiple of 4. -/
theorem busErrorExactly : Obligations.BusErrorExactly := by
  unfold Obligations.BusErrorExactly
  refine ⟨fun s e => ?_, step_ne_refused⟩
  simp only [step_fault_iff, accessLegal_eq_false]

end Sys2Proof.Machine
end

section
/-!
PROOFS. The two descriptions of a legal command word (R70): the rows of the opcode map, and the three clauses.
Both are read off the five fields of the word. A row's pattern and mask are concatenations of fields as the word itself is
(R65), so that a word selects a row when its fields pass the decoder's checks and its opcode number names that row.
-/

namespace Sys2Proof

/-! ### A word and its fields -/

/-- A command word is the concatenation of its fields (R65). -/
theorem word_eq_append_fields (c : Word) :
    c.extractLsb' 15 17 ++ c.extractLsb' 12 3 ++ c.extractLsb' 9 3 ++ c.extractLsb' 6 3 ++ c.extractLsb' 0 6 = c := by
  rw [BitVec.extractLsb'_append_extractLsb'_eq_extractLsb' (by decide),
    BitVec.extractLsb'_append_extractLsb'_eq_extractLsb' (by decide),
    BitVec.extractLsb'_append_extractLsb'_eq_extractLsb' (by decide),
    BitVec.extractLsb'_append_extractLsb'_eq_extractLsb' (by decide)]
  exact BitVec.extractLsb'_eq_self

theorem append_fields_inj {z z' : BitVec 17} {r2 r2' r1 r1' d d' : Reg} {n n' : BitVec 6} :
    z ++ r2 ++ r1 ++ d ++ n = z' ++ r2' ++ r1' ++ d' ++ n' ↔ z = z' ∧ r2 = r2' ∧ r1 = r1' ∧ d = d' ∧ n = n' := by
  constructor
  · intro h
    refine ⟨?_, ?_, ?_, ?_, ?_⟩
    · rw [← word_zero z r2 r1 d n, h, word_zero]
    · rw [← word_rs2 z r2 r1 d n, h, word_rs2]
    · rw [← word_rs1 z r2 r1 d n, h, word_rs1]
    · rw [← word_rd z r2 r1 d n, h, word_rd]
    · rw [← word_opc z r2 r1 d n, h, word_opc]
  · rintro ⟨rfl, rfl, rfl, rfl, rfl⟩
    rfl

theorem append_fields_and (z z' : BitVec 17) (r2 r2' r1 r1' d d' : Reg) (n n' : BitVec 6) :
    (z ++ r2 ++ r1 ++ d ++ n) &&& (z' ++ r2' ++ r1' ++ d' ++ n') =
      (z &&& z') ++ (r2 &&& r2') ++ (r1 &&& r1') ++ (d &&& d') ++ (n &&& n') := by
  simp only [BitVec.and_append]

theorem opcodeOfCode_eq_some_iff {n : BitVec 6} {op : Opcode} : opcodeOfCode n = some op ↔ n = op.code := by
  constructor
  · revert n; cases op <;> decide
  · rintro rfl
    exact opcodeOfCode_code op

theorem opcodeOfCode_eq_none_iff {n : BitVec 6} : opcodeOfCode n = none ↔ n = 0x00 ∨ 0x15 ≤ n.toNat := by
  revert n; decide

theorem form_eq_r_iff (op : Opcode) : op.form = .r ↔ op.code.toNat ∈ [0x03, 0x04, 0x05, 0x06, 0x14] := by
  cases op <;> decide

/-! ### The decoder accepts exactly the well-formed words -/

theorem legal_eq_wf (c : Word) : legal c = (commandFields c).wf := by
  unfold legal decode Command.wf Command.opcodeDefined
  cases hop : (commandFields c).op with
  | none => simp [hop, Except.isOk, Except.toBool]
  | some op =>
    cases hz : (commandFields c).reservedClear <;> cases hs : (commandFields c).secondSourceOk <;>
      simp [hop, hz, hs, Except.isOk, Except.toBool]

theorem Command.wf_of_op {k : Command} {op : Opcode} (h : k.op = some op) :
    k.wf = true ↔ k.zero = 0 ∧ (op.form = .r ∨ k.rs2 = 0) := by
  simp [Command.wf, Command.opcodeDefined, Command.reservedClear, Command.secondSourceOk, h]

theorem Command.exists_op_of_wf {k : Command} (h : k.wf = true) : ∃ op, k.op = some op := by
  simp only [Command.wf, Command.opcodeDefined, Bool.and_eq_true] at h
  obtain ⟨⟨hdefined, -⟩, -⟩ := h
  exact Option.isSome_iff_exists.1 hdefined

/-! ### The rows of the opcode map -/

/-- The bits of the `rs2` field that a row's mask covers: none in form `R`, all of them in form `U` (R67). -/
def Form.rs2Mask : Form → BitVec 3
  | .r => 0
  | .u => BitVec.allOnes 3

/-- The row of an opcode, its pattern and mask written by fields (R65, R68). -/
def Opcode.row (op : Opcode) : OpcodeRow where
  op := op
  pattern := 0#17 ++ 0#3 ++ 0#3 ++ 0#3 ++ op.code
  mask := BitVec.allOnes 17 ++ op.form.rs2Mask ++ 0#3 ++ 0#3 ++ BitVec.allOnes 6

/-- The opcodes in the order of the opcode map (R68). -/
def opcodesInOrder : List Opcode :=
  [.neg, .abs, .add, .sub, .mul, .div, .sqrt, .exp, .ln, .log2,
   .log10, .sin, .sinc, .cosc, .tanc, .cfrac, .fromint, .data, .cls, .mkval]

theorem opcodeMap_eq_map_row : opcodeMap = opcodesInOrder.map Opcode.row := by decide

theorem count_opcodesInOrder (op : Opcode) : opcodesInOrder.count op = 1 := by cases op <;> decide

theorem and_rs2Mask_eq_zero_iff (f : Form) (r : BitVec 3) : r &&& f.rs2Mask = 0 ↔ f = .r ∨ r = 0 := by
  cases f with
  | r => simp [Form.rs2Mask]
  | u => rw [Form.rs2Mask, BitVec.and_allOnes]; simp

/-- A word selects the row of its opcode, when it passes the decoder's checks, and no other (R68, R70). -/
theorem row_selects_iff (op : Opcode) (c : Word) :
    op.row.selects c = true ↔ (commandFields c).op = some op ∧ (commandFields c).wf = true := by
  have hfields : op.row.selects c = true ↔
      c.extractLsb' 15 17 = 0 ∧ c.extractLsb' 12 3 &&& op.form.rs2Mask = 0 ∧ c.extractLsb' 0 6 = op.code := by
    rw [OpcodeRow.selects, beq_iff_eq]
    conv_lhs => rw [← word_eq_append_fields c]
    refine (Eq.congr_left (append_fields_and ..)).trans (append_fields_inj.trans ?_)
    simp only [BitVec.and_allOnes, BitVec.and_zero, true_and]
    exact Iff.rfl
  rw [hfields, and_rs2Mask_eq_zero_iff, ← opcodeOfCode_eq_some_iff]
  constructor
  · rintro ⟨hzero, hrs2, hop⟩
    exact ⟨hop, (Command.wf_of_op hop).2 ⟨hzero, hrs2⟩⟩
  · rintro ⟨hop, hwf⟩
    obtain ⟨hzero, hrs2⟩ := (Command.wf_of_op hop).1 hwf
    exact ⟨hzero, hrs2, hop⟩

/-- One row of the opcode map selects a legal word and none selects an illegal one (R70). -/
theorem length_filter_selects (c : Word) :
    (opcodeMap.filter fun r => r.selects c).length = if legal c = true then 1 else 0 := by
  rw [← List.countP_eq_length_filter, opcodeMap_eq_map_row, List.countP_map, legal_eq_wf]
  split
  case isTrue hwf =>
    obtain ⟨op, hop⟩ := Command.exists_op_of_wf hwf
    have hown : ((fun r => r.selects c) ∘ Opcode.row) = (· == op) := by
      funext op'
      rw [Bool.eq_iff_iff, Function.comp_apply, row_selects_iff, hop]
      simp only [hwf, and_true, Option.some.injEq, beq_iff_eq]
      exact eq_comm
    rw [hown]
    exact count_opcodesInOrder op
  case isFalse hwf =>
    refine List.countP_eq_zero.2 fun op _ hsel => hwf ?_
    exact ((row_selects_iff op c).1 hsel).2

/-! ### The three clauses of an illegal word -/

/-- The clauses of R70, each on its field of the word (R67, R69, R71). -/
theorem legal_eq_false_iff_clauses (c : Word) :
    legal c = false ↔
      (c.extractLsb' 0 6 = 0x00 ∨ 0x15 ≤ (c.extractLsb' 0 6).toNat) ∨ c.extractLsb' 15 17 ≠ 0 ∨
      ((c.extractLsb' 0 6).toNat ∉ [0x03, 0x04, 0x05, 0x06, 0x14] ∧ c.extractLsb' 12 3 ≠ 0) := by
  rw [legal_eq_wf, ← opcodeOfCode_eq_none_iff, ← Bool.not_eq_true]
  cases hop : opcodeOfCode (c.extractLsb' 0 6) with
  | none =>
    refine iff_of_true (fun hwf => ?_) (.inl rfl)
    obtain ⟨op, hsome⟩ := Command.exists_op_of_wf hwf
    exact Option.some_ne_none op (hsome.symm.trans hop)
  | some op =>
    have hwf : (commandFields c).wf = true ↔
        c.extractLsb' 15 17 = 0 ∧ (op.form = .r ∨ c.extractLsb' 12 3 = 0) := Command.wf_of_op hop
    rw [hwf, form_eq_r_iff, ← opcodeOfCode_eq_some_iff.1 hop, not_and_or, not_or]
    simp

/-- Settles O3: by the count of the rows that select the word, and by the clauses on its fields. -/
theorem legalWords : Obligations.LegalWords := by
  unfold Obligations.LegalWords
  intro c
  refine ⟨?_, legal_eq_false_iff_clauses c⟩
  rw [length_filter_selects]
  cases legal c <;> decide

end Sys2Proof
end

section
/-!
PROOFS. The value operations `FROMINT`, `DATA`, `CLASS` and `MKVAL` (R107 to R110).
A value word is its magnitude field followed by its status field (R60). Each operation that builds a value word gives it as such a
concatenation, from which its class and its magnitude are read off.
-/

namespace Sys2Proof.Machine

open Sys2Proof.Claims

/-! ### What a command leaves in its destination register -/

/-- A command answers a next state in which `F[rd]` is its result word (R100, R240). -/
theorem exec_writes_result (i : Instr) (s : State) : ∃ t, exec i s = .next t ∧
    t.readF i.rd = resultOf i (s.srcA i.rs1) (s.srcB (i.rs2.getD 0)) :=
  ⟨_, exec_eq_complete i s, by rw [State.readF_complete, if_pos rfl]⟩

/-! ### A value word and its two fields -/

section
variable (m : BitVec 30) (c : BitVec 2)

@[simp] theorem statusField_append : statusField (m ++ c) = c := BitVec.extractLsb'_append_eq_right

theorem mag_append : mag (m ++ c) = m.toInt := congrArg BitVec.toInt BitVec.extractLsb'_append_eq_left

end

/-- A value word is the concatenation of its magnitude and status fields (R60). -/
theorem append_statusField (w : Word) : w.extractLsb' 2 30 ++ statusField w = w :=
  (BitVec.extractLsb'_append_extractLsb'_eq_extractLsb' (by decide)).trans BitVec.extractLsb'_eq_self

theorem isValue_append_zero (m : BitVec 30) : isValue (m ++ 0#2) m.toInt :=
  ⟨by simp [isNormal], mag_append m 0#2⟩

/-- `norm(q)` is the magnitude field of `q`, wrapped, with the Normal status (R105). -/
theorem normalW_eq_append (q : Int) : normalW q = BitVec.ofInt 30 q ++ 0#2 := by
  apply BitVec.eq_of_toInt_eq
  have hlow : (BitVec.ofInt 30 q ++ 0#2).toInt = 2 ^ 2 * (BitVec.ofInt 30 q).toInt := BitVec.toInt_append_zero
  rw [hlow, normalW, BitVec.toInt_ofInt, BitVec.toInt_ofInt]
  simp only [Int.bmod_def]
  omega

theorem isNormal_normalW (q : Int) : isNormal (normalW q) = true := by
  simp [normalW_eq_append, isNormal]

/-- `norm(q)` has the value `q` when `q` is representable (R105). -/
theorem isValue_normalW {q : Int} (hlo : -2 ^ 29 ≤ q) (hhi : q ≤ 2 ^ 29 - 1) : isValue (normalW q) q := by
  have hq : (BitVec.ofInt 30 q).toInt = q := BitVec.toInt_ofInt_eq_self (by decide) hlo (by omega)
  rw [normalW_eq_append]
  simpa only [hq] using isValue_append_zero (BitVec.ofInt 30 q)

/-! ### `FROMINT` -/

theorem fromIntW_eq_shiftLeft (a : Word) : fromIntW a = a <<< 17 := by
  rw [fromIntW, BitVec.ofInt_mul, BitVec.ofInt_toInt, BitVec.shiftLeft_eq_mul_twoPow]
  rfl

/-- One integer unit is `2^15` units of a magnitude (R62, R107). -/
theorem fromIntW_eq_normalW (a : Word) : fromIntW a = normalW (a.toInt * 2 ^ 15) := by
  rw [fromIntW, normalW, mul_assoc]
  rfl

/-- Settles O42: the shifted word is `norm(n * 2^15)`, which is representable for `n` in the stated range. -/
theorem fromintResult : Obligations.FromintResult := by
  unfold Obligations.FromintResult
  intro rd rs1 s
  obtain ⟨t, ht, hr⟩ := exec_writes_result (.fromint rd rs1) s
  have hword : t.readF rd = fromIntW (s.srcA rs1) := hr
  refine ⟨t, ht, ?_, ?_, fun hlo hhi => ?_⟩
  · rw [hword, fromIntW_eq_shiftLeft]
  · rw [hword, fromIntW_eq_normalW]
    exact isNormal_normalW _
  · rw [hword, fromIntW_eq_normalW]
    exact (isValue_normalW (by omega) (by omega)).2

/-! ### `DATA` and `MKVAL` -/

theorem and_statusMask (b : Word) : b &&& 0x00000003 = 0#30 ++ statusField b := by
  conv_lhs => rw [← append_statusField b]
  refine (BitVec.and_append (x₂ := 0#30) (y₂ := BitVec.allOnes 2)).trans ?_
  rw [BitVec.and_zero, BitVec.and_allOnes]

/-- `DATA` keeps the magnitude field and clears the status field (R108). -/
theorem dataW_eq_append (a : Word) : dataW a = a.extractLsb' 2 30 ++ 0#2 := by
  rw [dataW]
  conv_lhs => rw [← append_statusField a]
  refine (BitVec.and_append (x₂ := BitVec.allOnes 30) (y₂ := 0#2)).trans ?_
  rw [BitVec.and_allOnes, BitVec.and_zero]

/-- `MKVAL` joins the magnitude field of the first operand and the status field of the second (R110). -/
theorem mkvalW_eq_append (a b : Word) : mkvalW a b = a.extractLsb' 2 30 ++ statusField b := by
  have hmag : a &&& 0xFFFFFFFC = a.extractLsb' 2 30 ++ 0#2 := dataW_eq_append a
  rw [mkvalW, hmag, and_statusMask]
  refine BitVec.or_append.trans ?_
  rw [BitVec.or_zero, BitVec.zero_or]

/-- Settles O43: the result is the operand's magnitude field with the Normal status. -/
theorem dataResult : Obligations.DataResult := by
  unfold Obligations.DataResult
  intro rd rs1 s
  obtain ⟨t, ht, hr⟩ := exec_writes_result (.data rd rs1) s
  have hword : t.readF rd = dataW (s.srcA rs1) := hr
  refine ⟨t, ht, hword, ?_⟩
  rw [hword, dataW_eq_append]
  exact isValue_append_zero _

/-- Settles O45: the two fields of the result, which for `MOV` are the two fields of one register. -/
theorem mkvalResult : Obligations.MkvalResult := by
  unfold Obligations.MkvalResult
  refine ⟨fun rd rs1 rs2 s => ?_, fun rd rs s hidle => ?_⟩
  · obtain ⟨t, ht, hr⟩ := exec_writes_result (.mkval rd rs1 rs2) s
    have hword : t.readF rd = (s.srcA rs1).extractLsb' 2 30 ++ statusField (s.srcB rs2) :=
      hr.trans (mkvalW_eq_append _ _)
    refine ⟨t, ht, ?_, ?_⟩
    · rw [hword]
      exact BitVec.extractLsb'_append_eq_left
    · rw [hword, statusField_append]
  · obtain ⟨t, ht, hr⟩ := exec_writes_result (movInstr rd rs) s
    have hword : t.readF rd = mkvalW (s.srcA rs) (s.srcB rs) := hr
    refine ⟨t, ht, ?_⟩
    rw [hword, State.srcA_idle hidle, State.srcB_idle hidle, mkvalW_eq_append, append_statusField]

/-! ### `CLASS` -/

/-- Every word is of exactly one of the four classes (R61, R101). -/
theorem sum_classTests_eq_one (w : Word) :
    (isNaN w).toNat + (isPInf w).toNat + (isNInf w).toNat + (isNormal w).toNat = 1 := by
  unfold isNaN isPInf isNInf isNormal
  generalize statusField w = c
  revert c
  decide

/-- The bits of the mask, lowest first (R109). -/
theorem classW_getLsbD (a : Word) (k : Nat) :
    (classW a).getLsbD k = [isNaN a, isPInf a, isNInf a, a.msb, isNormal a].getD k false := by
  simp only [classW, BitVec.getLsbD_append]
  match k with
  | 0 => simp
  | 1 => simp
  | 2 => simp
  | 3 => simp
  | 4 => simp
  | k + 5 => simp

/-- Settles O44: the bits of the mask, of which the four class tests are those of one word. -/
theorem classResult : Obligations.ClassResult := by
  unfold Obligations.ClassResult
  intro rd rs1 s
  obtain ⟨t, ht, hr⟩ := exec_writes_result (.cls rd rs1) s
  have hword : t.readF rd = classW (s.srcA rs1) := hr
  refine ⟨t, ht, ?_⟩
  have hsign : (s.srcA rs1).msb = (s.srcA rs1).getLsbD 31 := BitVec.msb_eq_getLsbD_last _
  simp only [hword, classW_getLsbD]
  refine ⟨rfl, rfl, rfl, hsign, rfl, fun k hk => ?_, sum_classTests_eq_one _⟩
  exact List.getD_eq_default _ _ hk

end Sys2Proof.Machine
end

section
/-!
PROOFS. The magnitude bits of a NaN or an infinity never influence a result (R103).
A command of one operand gives a fixed word on each of the three special classes, so it cannot tell two spellings of one of them
apart. A command of two operands reads each only through its class tests and its magnitude as read, `opMag`.
-/

namespace Sys2Proof.Machine

open Sys2Proof.Claims

/-! ### The results of one operand on the special classes -/

/-- The result function `f` gives the fixed words `n`, `p` and `g` on every NaN, every +Inf and every -Inf. -/
structure SpecialResults {α : Type} (f : Word → α) (n p g : α) : Prop where
  nan : ∀ w, statusField w = 0b01 → f w = n
  pinf : ∀ w, statusField w = 0b10 → f w = p
  ninf : ∀ w, statusField w = 0b11 → f w = g

theorem sameReading_refl (w : Word) : sameReading w w := ⟨rfl, fun _ => rfl⟩

/-- Two words of one reading are equal, or of one special class. -/
theorem sameReading_cases {x y : Word} (h : sameReading x y) :
    x = y ∨ statusField y = statusField x ∧
      (statusField x = 0b01 ∨ statusField x = 0b10 ∨ statusField x = 0b11) := by
  obtain ⟨hstatus, hnormal⟩ := h
  have hfour : ∀ c : BitVec 2, c = 0b00 ∨ c = 0b01 ∨ c = 0b10 ∨ c = 0b11 := by decide
  obtain hzero | hspecial := hfour (statusField x)
  · exact .inl (hnormal (by simp [isNormal, hzero]))
  · exact .inr ⟨hstatus.symm, hspecial⟩

theorem SpecialResults.congr {α : Type} {f : Word → α} {n p g : α} (hf : SpecialResults f n p g) {x y : Word}
    (h : sameReading x y) : f x = f y := by
  obtain rfl | ⟨hy, hnan | hpinf | hninf⟩ := sameReading_cases h
  · rfl
  · rw [hf.nan x hnan, hf.nan y (hy.trans hnan)]
  · rw [hf.pinf x hpinf, hf.pinf y (hy.trans hpinf)]
  · rw [hf.ninf x hninf, hf.ninf y (hy.trans hninf)]

/-! The table of each result function on a NaN, a +Inf and a -Inf (R103, R120, R122, R160, R170, R180, R200, R201). -/

theorem opMag_special : SpecialResults opMag 0 0 0 where
  nan w h := by simp [opMag, isNormal, h]
  pinf w h := by simp [opMag, isNormal, h]
  ninf w h := by simp [opMag, isNormal, h]

theorem negW_special : SpecialResults negW nanW ninfW pinfW where
  nan w h := by simp [negW, negWith, isNaN, h]
  pinf w h := by simp [negW, negWith, isNaN, isPInf, h]
  ninf w h := by simp [negW, negWith, isNaN, isPInf, isNInf, h]

theorem absW_special : SpecialResults absW nanW pinfW pinfW where
  nan w h := by simp [absW, absWith, isNaN, h]
  pinf w h := by simp [absW, absWith, isNaN, isInf, isPInf, h]
  ninf w h := by simp [absW, absWith, isNaN, isInf, isPInf, isNInf, h]

theorem sqrtW_special : SpecialResults sqrtW nanW pinfW nanW where
  nan w h := by simp [sqrtW, isNaN, h]
  pinf w h := by simp [sqrtW, isNaN, isNInf, isNegN, isNormal, isPInf, h]
  ninf w h := by simp [sqrtW, isNInf, h]

theorem expW_special : SpecialResults expW nanW pinfW 0x00000000 where
  nan w h := by simp [expW, isNaN, h]
  pinf w h := by simp [expW, isNaN, isPInf, h]
  ninf w h := by simp [expW, isNaN, isPInf, isNInf, h]

theorem logW_special (op : LogOp) : SpecialResults (logW op) nanW pinfW ninfW where
  nan w h := by simp [logW, isNaN, h]
  pinf w h := by simp [logW, isNaN, isNegN, isNormal, isNInf, isPInf, h]
  ninf w h := by simp [logW, isNaN, isNegN, isNormal, isNInf, h]

theorem trigW_special (fn : Int → Int) : SpecialResults (trigW fn) nanW nanW nanW where
  nan w h := by simp [trigW, isNaN, h]
  pinf w h := by simp [trigW, isInf, isPInf, h]
  ninf w h := by simp [trigW, isInf, isNInf, h]

theorem tancW_special : SpecialResults tancW nanW nanW nanW where
  nan w h := by simp [tancW, isNaN, h]
  pinf w h := by simp [tancW, isInf, isPInf, h]
  ninf w h := by simp [tancW, isInf, isNInf, h]

/-- `CFRAC` reads 0 from every word that is not Normal (R201). -/
theorem cfracW_special : SpecialResults cfracW (cfracW 0) (cfracW 0) (cfracW 0) where
  nan w h := by rw [cfracW, opMag_special.nan w h]; rfl
  pinf w h := by rw [cfracW, opMag_special.pinf w h]; rfl
  ninf w h := by rw [cfracW, opMag_special.ninf w h]; rfl

/-! ### The results of two operands -/

section
variable {x y a a' b b' : Word}

theorem isNaN_congr (h : sameReading x y) : isNaN x = isNaN y := by rw [isNaN, isNaN, h.1]

theorem isPInf_congr (h : sameReading x y) : isPInf x = isPInf y := by rw [isPInf, isPInf, h.1]

theorem isNInf_congr (h : sameReading x y) : isNInf x = isNInf y := by rw [isNInf, isNInf, h.1]

theorem addW_congr (ha : sameReading a a') (hb : sameReading b b') : addW a b = addW a' b' := by
  simp only [addW, isNaN_congr ha, isNaN_congr hb, isPInf_congr ha, isPInf_congr hb, isNInf_congr ha, isNInf_congr hb,
    opMag_special.congr ha, opMag_special.congr hb]

theorem subW_congr (ha : sameReading a a') (hb : sameReading b b') : subW a b = subW a' b' := by
  rw [subW, negW_special.congr hb]
  exact addW_congr ha (sameReading_refl _)

theorem combine_congr (ha : sameReading a a') (hb : sameReading b b') (n : Bool) (q : Int) :
    combine a b n q = combine a' b' n q := by
  simp only [combine, infSign, combineWith, isPInf_congr ha, isPInf_congr hb, isNInf_congr ha, isNInf_congr hb]

theorem mulW_congr (ha : sameReading a a') (hb : sameReading b b') : mulW a b = mulW a' b' := by
  simp only [mulW, isNaN_congr ha, isNaN_congr hb, opMag_special.congr ha, opMag_special.congr hb, combine_congr ha hb]

theorem divW_congr (ha : sameReading a a') (hb : sameReading b b') : divW a b = divW a' b' := by
  simp only [divW, isNaN_congr ha, isNaN_congr hb, opMag_special.congr ha, opMag_special.congr hb, combine_congr ha hb]

/-! ### Every command that reads magnitudes -/

/-- Operand words of one reading give one result word; a second operand is there in form `R` only (R67, R103). -/
theorem resultOf_congr {i : Instr} (hi : readsMagnitude i = true) (ha : sameReading a a')
    (hb : i.rs2.isSome = true → sameReading b b') : resultOf i a b = resultOf i a' b' := by
  cases i with
  | neg => exact negW_special.congr ha
  | abs => exact absW_special.congr ha
  | add => exact addW_congr ha (hb rfl)
  | sub => exact subW_congr ha (hb rfl)
  | mul => exact mulW_congr ha (hb rfl)
  | div => exact divW_congr ha (hb rfl)
  | sqrt => exact sqrtW_special.congr ha
  | exp => exact expW_special.congr ha
  | ln => exact (logW_special .ln).congr ha
  | log2 => exact (logW_special .log2).congr ha
  | log10 => exact (logW_special .log10).congr ha
  | sin => exact (trigW_special sinFn).congr ha
  | sinc => exact (trigW_special sincFn).congr ha
  | cosc => exact (trigW_special coscFn).congr ha
  | tanc => exact tancW_special.congr ha
  | cfrac => exact cfracW_special.congr ha
  | fromint => cases hi
  | data => cases hi
  | cls => cases hi
  | mkval => cases hi

end

/-- Settles O59: both states' results are the command's result function on operand words of one reading. -/
theorem specialMagnitudesIgnored : Obligations.SpecialMagnitudesIgnored := by
  unfold Obligations.SpecialMagnitudesIgnored
  refine ⟨fun w => rfl, fun i s t hi ha hb => ?_⟩
  obtain ⟨s', hs, hs'⟩ := exec_writes_result i s
  obtain ⟨t', ht, ht'⟩ := exec_writes_result i t
  refine ⟨s', t', hs, ht, ?_⟩
  rw [hs', ht']
  refine resultOf_congr hi ha fun hsome => ?_
  obtain ⟨r, hr⟩ := Option.isSome_iff_exists.1 hsome
  rw [hr]
  exact hb r hr

end Sys2Proof.Machine
end

section
/-!
PROOFS. The core arithmetic `NEG`, `ABS`, `ADD` and `SUB` (R120 to R125).
A Normal word is `norm` of its own magnitude, so that the most negative magnitude, the one whose negation is not representable,
belongs to the one word `0x80000000`. `SUB` is `ADD` on the negated second operand, of which only the class and the magnitude count.
-/

namespace Sys2Proof.Machine

open Sys2Proof.Claims

/-! ### Normal words -/

/-- A word that is none of the three special values is Normal (R61). -/
theorem isNormal_of_not_special {w : Word} (hnan : ¬isNaN w = true) (hpinf : ¬isPInf w = true)
    (hninf : ¬isNInf w = true) : isNormal w = true := by
  have hone := sum_classTests_eq_one w
  simpa [hnan, hpinf, hninf] using hone

theorem not_special_of_isNormal {w : Word} (h : isNormal w = true) :
    isNaN w = false ∧ isPInf w = false ∧ isNInf w = false := by
  have hstatus : statusField w = 0b00 := eq_of_beq h
  simp [isNaN, isPInf, isNInf, hstatus]

theorem neg_two_pow_le_mag (w : Word) : -2 ^ 29 ≤ mag w := BitVec.le_toInt (w.extractLsb' 2 30)

theorem mag_le (w : Word) : mag w ≤ 2 ^ 29 - 1 :=
  Int.le_sub_one_of_lt (BitVec.toInt_lt (x := w.extractLsb' 2 30))

/-- A Normal word is `norm` of its magnitude (R105). -/
theorem normalW_mag {w : Word} (h : isNormal w = true) : normalW (mag w) = w := by
  have hstatus : statusField w = 0#2 := eq_of_beq h
  rw [normalW_eq_append, mag, BitVec.ofInt_toInt, ← hstatus, append_statusField]

/-- The Normal word of the most negative magnitude is `0x80000000` (R121). -/
theorem mag_eq_min_iff {w : Word} (h : isNormal w = true) : mag w = -2 ^ 29 ↔ w = 0x80000000 := by
  constructor
  · intro hmag
    rw [← normalW_mag h, hmag]
    rfl
  · rintro rfl
    rfl

/-- The sign of the magnitude is the sign bit of the word (R60). -/
theorem msb_eq_mag_neg (w : Word) : w.msb = decide (mag w < 0) := by
  rw [mag, ← BitVec.msb_eq_toInt]
  conv_lhs => rw [← append_statusField w]
  exact BitVec.msb_append.trans (if_neg (by decide))

theorem isNegN_iff {w : Word} (h : isNormal w = true) : isNegN w = true ↔ mag w < 0 := by
  simp [isNegN, h, msb_eq_mag_neg]

/-! ### `NEG` -/

theorem negW_min : negW 0x80000000 = 0x80000000 := rfl

theorem negW_of_normal {w : Word} (h : isNormal w = true) (hmin : w ≠ 0x80000000) : negW w = normalW (-mag w) := by
  have hmag : mag w ≠ -2 ^ 29 := mt (mag_eq_min_iff h).1 hmin
  obtain ⟨hnan, hpinf, hninf⟩ := not_special_of_isNormal h
  simp only [negW, negWith, hnan, hpinf, hninf, hmag, Bool.false_eq_true, if_false]

/-- Every Normal magnitude but the most negative has a representable negation (R120, R121). -/
theorem isValue_negW {w : Word} (h : isNormal w = true) (hmin : w ≠ 0x80000000) : isValue (negW w) (-mag w) := by
  have hmag : mag w ≠ -2 ^ 29 := mt (mag_eq_min_iff h).1 hmin
  have hlo := neg_two_pow_le_mag w
  have hhi := mag_le w
  rw [negW_of_normal h hmin]
  exact isValue_normalW (by omega) (by omega)

/-- Settles O30: the three special classes, the most negative word, and every other Normal word. -/
theorem negResult : Obligations.NegResult := by
  unfold Obligations.NegResult
  intro rd rs1 s
  obtain ⟨t, ht, hr⟩ := exec_writes_result (.neg rd rs1) s
  have hword : t.readF rd = negW (s.srcA rs1) := hr
  refine ⟨t, ht, ?_⟩
  rw [hword]
  split_ifs with hnan hpinf hninf hmin
  · exact negW_special.nan _ (eq_of_beq hnan)
  · exact negW_special.pinf _ (eq_of_beq hpinf)
  · exact negW_special.ninf _ (eq_of_beq hninf)
  · rw [hmin, negW_min]
  · exact isValue_negW (isNormal_of_not_special hnan hpinf hninf) hmin

/-! ### `ABS` -/

theorem isInf_iff (w : Word) : isInf w = true ↔ isPInf w = true ∨ isNInf w = true := Bool.or_eq_true_iff

theorem isNormal_of_not_isInf {w : Word} (hnan : ¬isNaN w = true) (hinf : ¬isInf w = true) : isNormal w = true := by
  rw [isInf_iff, not_or] at hinf
  exact isNormal_of_not_special hnan hinf.1 hinf.2

theorem absW_min : absW 0x80000000 = 0x80000000 := rfl

theorem absW_of_isInf {w : Word} (h : isInf w = true) : absW w = pinfW := by
  obtain hpinf | hninf := (isInf_iff w).1 h
  · exact absW_special.pinf w (eq_of_beq hpinf)
  · exact absW_special.ninf w (eq_of_beq hninf)

/-- `ABS` of a Normal word negates it exactly when its magnitude is negative (R122). -/
theorem absW_of_normal {w : Word} (h : isNormal w = true) : absW w = if mag w < 0 then negW w else w := by
  obtain ⟨hnan, hpinf, hninf⟩ := not_special_of_isNormal h
  simp only [absW, absWith, negW, isInf, hnan, hpinf, hninf, isNegN_iff h, Bool.or_self, Bool.false_eq_true, if_false]

/-- Settles O31: NaN, the infinities, the Normal words `ABS` keeps, and those it negates. -/
theorem absResult : Obligations.AbsResult := by
  unfold Obligations.AbsResult
  intro rd rs1 s
  obtain ⟨t, ht, hr⟩ := exec_writes_result (.abs rd rs1) s
  have hword : t.readF rd = absW (s.srcA rs1) := hr
  refine ⟨t, ht, ?_⟩
  rw [hword]
  split_ifs with hnan hinf hkept
  · exact absW_special.nan _ (eq_of_beq hnan)
  · exact absW_of_isInf hinf
  · obtain hnonneg | hmin := hkept
    · rw [absW_of_normal (isNormal_of_not_isInf hnan hinf), if_neg (not_lt.2 hnonneg)]
    · rw [hmin, absW_min]
  · obtain ⟨hneg, hmin⟩ := not_or.1 hkept
    have hnormal := isNormal_of_not_isInf hnan hinf
    rw [absW_of_normal hnormal, if_pos (not_le.1 hneg)]
    exact isValue_negW hnormal hmin

/-! ### `ADD` -/

/-- +Inf stands before -Inf, so that excluding it from the -Inf condition changes nothing (R106). -/
theorem pack_and_not (n p g : Bool) (q : Int) : pack n p (g && !p) q = pack n p g q := by
  cases p <;> simp [pack]

/-- A word packed with the range test in both infinity conditions is classed by the operands' conditions (R104, R123). -/
theorem classed_pack (n p g : Bool) (q : Int) :
    classed n p g q (pack n (p || decide (q > 2 ^ 29 - 1)) (g || decide (q < -2 ^ 29)) q) := by
  simp only [classed, pack, Bool.or_eq_true, decide_eq_true_eq]
  split_ifs with hn hp hg
  · rfl
  · rfl
  · rfl
  · obtain ⟨-, hhi⟩ := not_or.1 hp
    obtain ⟨-, hlo⟩ := not_or.1 hg
    exact isValue_normalW (not_lt.1 hlo) (not_lt.1 hhi)

theorem classed_addW (a b : Word) :
    classed (isNaN a || isNaN b) (isPInf a || isPInf b) (isNInf a || isNInf b) (opMag a + opMag b) (addW a b) := by
  unfold addW
  rw [pack_and_not]
  exact classed_pack ..

/-- Settles O32: the result of `add` is classed by its operands and its exact sum. -/
theorem addResult : Obligations.AddResult := by
  unfold Obligations.AddResult
  intro rd rs1 rs2 s
  obtain ⟨t, ht, hr⟩ := exec_writes_result (.add rd rs1 rs2) s
  have hword : t.readF rd = addW (s.srcA rs1) (s.srcB rs2) := hr
  refine ⟨t, ht, ?_⟩
  rw [hword]
  exact classed_addW _ _

/-! ### `SUB` -/

theorem isNormal_negW {w : Word} (h : isNormal w = true) : isNormal (negW w) = true := by
  by_cases hmin : w = 0x80000000
  · rw [hmin, negW_min]
    rfl
  · exact (isValue_negW h hmin).1

/-- Negation keeps NaN and Normal and swaps the infinities (R120). -/
theorem statusField_negW (w : Word) : statusField (negW w) =
    if statusField w = 0b10 then 0b11 else if statusField w = 0b11 then 0b10 else statusField w := by
  by_cases hnan : isNaN w = true
  · have hstatus := eq_of_beq hnan
    rw [negW_special.nan w hstatus, hstatus]
    rfl
  split_ifs with hpinf hninf
  · rw [negW_special.pinf w hpinf]
    rfl
  · rw [negW_special.ninf w hninf]
    rfl
  · have hnormal : isNormal w = true :=
      isNormal_of_not_special hnan (by simpa [isPInf] using hpinf) (by simpa [isNInf] using hninf)
    rw [eq_of_beq (isNormal_negW hnormal), eq_of_beq hnormal]

theorem classTests_negW (w : Word) : isNormal (negW w) = isNormal w ∧ isNaN (negW w) = isNaN w ∧
    isPInf (negW w) = isNInf w ∧ isNInf (negW w) = isPInf w := by
  unfold isNormal isNaN isPInf isNInf
  rw [statusField_negW]
  generalize statusField w = c
  revert c
  decide

theorem opMag_of_normal {w : Word} (h : isNormal w = true) : opMag w = mag w := if_pos h

/-- The magnitude of the negated word, as it is read; what is not Normal reads 0 before and after (R103, R121). -/
theorem opMag_negW (w : Word) : opMag (negW w) = if w = 0x80000000 then -2 ^ 29 else -opMag w := by
  split_ifs with hmin
  · rw [hmin]
    rfl
  · by_cases h : isNormal w = true
    · obtain ⟨hnormal, hmag⟩ := isValue_negW h hmin
      rw [opMag_of_normal hnormal, opMag_of_normal h, hmag]
    · simp [opMag, (classTests_negW w).1, h]

/-- The sum on the negated second operand, by the class and the magnitude of the operand itself (R125). -/
theorem classed_subW (a b : Word) :
    classed (isNaN a || isNaN b) (isPInf a || isNInf b) (isNInf a || isPInf b)
      (opMag a + if b = 0x80000000 then -2 ^ 29 else -opMag b) (subW a b) := by
  obtain ⟨-, hnan, hpinf, hninf⟩ := classTests_negW b
  rw [← hnan, ← hpinf, ← hninf, ← opMag_negW]
  exact classed_addW a (negW b)

/-- Settles O33: `sub` is `add` on the negated second operand. -/
theorem subResult : Obligations.SubResult := by
  unfold Obligations.SubResult
  intro rd rs1 rs2 s
  obtain ⟨t, ht, hr⟩ := exec_writes_result (.sub rd rs1 rs2) s
  have hword : t.readF rd = subW (s.srcA rs1) (s.srcB rs2) := hr
  refine ⟨t, ht, ?_⟩
  rw [hword]
  exact classed_subW _ _

end Sys2Proof.Machine
end

section
/-!
PROOFS. The multiplicative arithmetic `MUL` and `DIV` (R140 to R142).
A rounded result that does not fit has the sign of the bound it exceeds, so `combine` makes the range test of `ADD`, and its word is
classed by the same rule. An infinite divisor is read as zero: where `DIV` is not NaN, only the dividend can be infinite.
-/

namespace Sys2Proof.Machine

open Sys2Proof.Claims

/-! ### The common end of `MUL` and `DIV` -/

/-- An overflow to +Inf is an excess over the largest magnitude (R140). -/
theorem not_fits_and_pos (q : Int) : (!fits q && decide (q > 0)) = decide (q > 2 ^ 29 - 1) := by
  rw [Bool.eq_iff_iff]
  simp only [fits, Bool.and_eq_true, Bool.not_eq_true', decide_eq_true_eq, decide_eq_false_iff_not]
  omega

/-- An overflow to -Inf is an excess below the smallest magnitude (R140). -/
theorem not_fits_and_neg (q : Int) : (!fits q && decide (q < 0)) = decide (q < -2 ^ 29) := by
  rw [Bool.eq_iff_iff]
  simp only [fits, Bool.and_eq_true, Bool.not_eq_true', decide_eq_true_eq, decide_eq_false_iff_not]
  omega

theorem combine_nan (a b : Word) (q : Int) : combine a b true q = nanW := rfl

/-- Without NaN, `combine` packs the operands' infinities with the range test on the rounded result (R140). -/
theorem combine_eq_pack (a b : Word) (q : Int) : combine a b false q =
    pack false (isPInf a || isPInf b || decide (q > 2 ^ 29 - 1)) (isNInf a || isNInf b || decide (q < -2 ^ 29)) q := by
  simp only [combine, infSign, combineWith, Bool.not_false, Bool.true_and, pack_and_not, not_fits_and_pos, not_fits_and_neg]

theorem classed_nan (p g : Bool) (q : Int) : classed true p g q nanW := by
  rw [classed, if_pos rfl]
  rfl

theorem classed_combine (a b : Word) (n : Bool) (q : Int) :
    classed n (isPInf a || isPInf b) (isNInf a || isNInf b) q (combine a b n q) := by
  cases n with
  | true => exact classed_nan ..
  | false =>
    rw [combine_eq_pack]
    exact classed_pack ..

/-! ### `MUL` -/

/-- Settles O34: `mul` combines its operands with their product rounded once. -/
theorem mulResult : Obligations.MulResult := by
  unfold Obligations.MulResult
  intro rd rs1 rs2 s
  obtain ⟨t, ht, hr⟩ := exec_writes_result (.mul rd rs1 rs2) s
  have hword : t.readF rd = mulW (s.srcA rs1) (s.srcB rs2) := hr
  refine ⟨t, ht, ?_⟩
  rw [hword]
  exact classed_combine ..

/-! ### `DIV` -/

/-- What is not Normal reads as zero (R103). -/
theorem isNormal_of_opMag_ne_zero {w : Word} (h : opMag w ≠ 0) : isNormal w = true := by
  by_contra hnormal
  exact h (if_neg hnormal)

theorem classed_divW (a b : Word) :
    classed (isNaN a || isNaN b || decide (opMag b = 0)) (isPInf a) (isNInf a)
      (rneDiv (opMag a * 2 ^ 15) (opMag b)) (divW a b) := by
  unfold divW
  cases hn : isNaN a || isNaN b || decide (opMag b = 0) with
  | true => exact classed_nan ..
  | false =>
    have hb : opMag b ≠ 0 := of_decide_eq_false (Bool.or_eq_false_iff.1 hn).2
    obtain ⟨-, hpinf, hninf⟩ := not_special_of_isNormal (isNormal_of_opMag_ne_zero hb)
    have h := classed_combine a b false (rneDiv (opMag a * 2 ^ 15) (opMag b))
    rwa [hpinf, hninf, Bool.or_false, Bool.or_false] at h

/-- Settles O35: a zero-valued divisor gives NaN; any other is Normal, and `div` combines as `mul` does. -/
theorem divResult : Obligations.DivResult := by
  unfold Obligations.DivResult
  intro rd rs1 rs2 s
  obtain ⟨t, ht, hr⟩ := exec_writes_result (.div rd rs1 rs2) s
  have hword : t.readF rd = divW (s.srcA rs1) (s.srcB rs2) := hr
  refine ⟨t, ht, ?_⟩
  rw [hword]
  exact classed_divW _ _

end Sys2Proof.Machine
end

section
/-!
PROOFS. The square root `SQRT` (R160, R161).
The engine keeps the smaller estimate, so it never rises above its seed `2^22`; rounding up from the seed itself would need an operand of
`2^44` or more. A root of a magnitude is therefore at most `2^22`, and its word is Normal.
-/

namespace Sys2Proof.Machine

open Sys2Proof.Claims

/-! ### The range of the engine -/

theorem bitlen_le {x n : Nat} (h : x < 2 ^ n) : bitlen x ≤ n := by
  unfold bitlen
  split_ifs with hx
  · exact n.zero_le
  · exact (Nat.log2_lt hx).2 h

/-- A Newton step keeps the smaller estimate, so no number of steps rises above the seed (R161). -/
theorem newton_le (N k x : Nat) : newton N k x ≤ x := by
  induction k generalizing x with
  | zero => exact le_rfl
  | succ k ih => exact (ih _).trans (min_le_left ..)

/-- The estimate is rounded up only below the root (R161). -/
theorem round_up_le {N x b : Nat} (hx : x ≤ b) (hN : N ≤ b * b) : (if N - x * x > x then x + 1 else x) ≤ b := by
  split_ifs with hup
  · have hne : x ≠ b := by
      rintro rfl
      omega
    omega
  · exact hx

/-- The engine's results are at most `2^22`, the root of the first magnitude that is not representable (R160). -/
theorem sqrtRef_le {m : Nat} (hm : m < 2 ^ 29) : sqrtRef m ≤ 2 ^ 22 := by
  have hlen : bitlen (m * 2 ^ 15) ≤ 44 := bitlen_le (by omega)
  have hseed : 2 ^ ((bitlen (m * 2 ^ 15) + 1) / 2) ≤ 2 ^ 22 := Nat.pow_le_pow_right (by decide) (by omega)
  unfold sqrtRef
  exact round_up_le ((newton_le ..).trans hseed) (by omega)

/-! ### `SQRT` -/

theorem sqrtW_of_isNegN {w : Word} (h : isNegN w = true) : sqrtW w = nanW := by
  simp only [sqrtW, h, Bool.or_true, if_true]

/-- `SQRT` of a Normal word that is not negative is the Normal word of the engine's root (R160). -/
theorem sqrtW_of_normal {w : Word} (h : isNormal w = true) (hneg : ¬isNegN w = true) :
    sqrtW w = normalW (sqrtRef (mag w).toNat) := by
  obtain ⟨hnan, hpinf, hninf⟩ := not_special_of_isNormal h
  simp only [sqrtW, hnan, hpinf, hninf, hneg, Bool.or_self, Bool.false_eq_true, if_false]

/-- The root of a representable magnitude is representable (R160). -/
theorem isValue_sqrtW {w : Word} (h : isNormal w = true) (hneg : ¬isNegN w = true) :
    isValue (sqrtW w) (sqrtRef (mag w).toNat) := by
  have hmag := mag_le w
  have hroot : sqrtRef (mag w).toNat ≤ 2 ^ 22 := sqrtRef_le (by omega)
  rw [sqrtW_of_normal h hneg]
  exact isValue_normalW (by omega) (by omega)

/-- Settles O36: the three domain errors, +Inf, and the Normal words that have a root. -/
theorem sqrtResult : Obligations.SqrtResult := by
  unfold Obligations.SqrtResult
  intro rd rs1 s
  obtain ⟨t, ht, hr⟩ := exec_writes_result (.sqrt rd rs1) s
  have hword : t.readF rd = sqrtW (s.srcA rs1) := hr
  refine ⟨t, ht, ?_⟩
  rw [hword]
  split_ifs with herr hpinf
  · obtain hnan | hninf | hneg := herr
    · exact sqrtW_special.nan _ (eq_of_beq hnan)
    · exact sqrtW_special.ninf _ (eq_of_beq hninf)
    · exact sqrtW_of_isNegN hneg
  · exact sqrtW_special.pinf _ (eq_of_beq hpinf)
  · obtain ⟨hnan, hninf, hneg⟩ := by simpa only [not_or] using herr
    exact isValue_sqrtW (isNormal_of_not_special hnan hpinf hninf) hneg

end Sys2Proof.Machine
end

section
/-!
PROOFS. The exponential `EXP` (R170, R171).
The special classes stand in the table of `expW`. On a Normal word the two range limits and the overflow test are decided by its
magnitude alone, so every branch of the statement is a branch of one equation; no property of the evaluator is needed.
-/

namespace Sys2Proof.Machine

/-- The Normal word of a magnitude is the magnitude above two zero status bits (R60, R105). -/
theorem normalW_eq_ofInt_four_mul (q : Int) : normalW q = BitVec.ofInt 32 (4 * q) := by
  rw [normalW, mul_comm]

/-- `EXP` of a Normal word: the range limits, then the evaluator with its overflow test (R170). -/
theorem expW_of_normal {w : Word} (h : isNormal w = true) :
    expW w =
      if mag w ≥ 2 ^ 19 then pinfW
      else if mag w ≤ -2 ^ 19 then 0x00000000
      else if expRef (mag w) > 2 ^ 29 - 1 then pinfW
      else normalW (expRef (mag w)) := by
  obtain ⟨hnan, hpinf, hninf⟩ := not_special_of_isNormal h
  simp only [expW, hnan, hpinf, hninf, Bool.false_eq_true, if_false]

/-- Settles O37: the three special classes, and the four cases of a Normal word. -/
theorem expResult : Obligations.ExpResult := by
  unfold Obligations.ExpResult
  intro rd rs1 s
  obtain ⟨t, ht, hr⟩ := exec_writes_result (.exp rd rs1) s
  have hword : t.readF rd = expW (s.srcA rs1) := hr
  refine ⟨t, ht, ?_⟩
  rw [hword]
  by_cases hnan : isNaN (s.srcA rs1) = true
  · rw [if_pos hnan]
    exact expW_special.nan _ (eq_of_beq hnan)
  by_cases hpinf : isPInf (s.srcA rs1) = true
  · rw [if_neg hnan, if_pos hpinf]
    exact expW_special.pinf _ (eq_of_beq hpinf)
  by_cases hninf : isNInf (s.srcA rs1) = true
  · rw [if_neg hnan, if_neg hpinf, if_pos hninf]
    exact expW_special.ninf _ (eq_of_beq hninf)
  rw [if_neg hnan, if_neg hpinf, if_neg hninf, expW_of_normal (isNormal_of_not_special hnan hpinf hninf)]
  split_ifs with hhigh hlow hover
  · rfl
  · rfl
  · rfl
  · exact normalW_eq_ofInt_four_mul _

end Sys2Proof.Machine
end

section
/-!
PROOFS. The logarithms `LN`, `LOG2` and `LOG10` (R180, R183 to R185).
The three commands differ only in the evaluator's operation, so the status rules of R180 are proved once, for every operation. A
Normal operand that is not negative is zero or has the evaluator's word; no property of the evaluator is needed.
-/

namespace Sys2Proof.Machine

open Sys2Proof.Claims

/-- A negative Normal operand is a domain error (R180). -/
theorem logW_of_isNegN (op : LogOp) {w : Word} (h : isNegN w = true) : logW op w = nanW := by
  simp only [logW, h, if_true, ite_self]

/-- The logarithm of a Normal word that is not negative: -Inf at zero, else the evaluator's word (R180). -/
theorem logW_of_normal (op : LogOp) {w : Word} (h : isNormal w = true) (hneg : ¬isNegN w = true) :
    logW op w = if mag w = 0 then ninfW else normalW (logRef op (mag w).toNat) := by
  obtain ⟨hnan, hpinf, hninf⟩ := not_special_of_isNormal h
  simp only [logW, hnan, hneg, hninf, hpinf, Bool.false_eq_true, if_false]

/-- The status rules that the three logarithms share (R180). -/
theorem logSpec_logW (op : LogOp) (w : Word) : logSpec (logRef op) w (logW op w) := by
  unfold logSpec
  split_ifs with herr hninf hpinf hzero
  · obtain hnan | hneg := herr
    · exact (logW_special op).nan w (eq_of_beq hnan)
    · exact logW_of_isNegN op hneg
  · exact (logW_special op).ninf w (eq_of_beq hninf)
  · exact (logW_special op).pinf w (eq_of_beq hpinf)
  · obtain ⟨hnan, hneg⟩ := not_or.1 herr
    rw [logW_of_normal op (isNormal_of_not_special hnan hpinf hninf) hneg, if_pos hzero]
    rfl
  · obtain ⟨hnan, hneg⟩ := not_or.1 herr
    rw [logW_of_normal op (isNormal_of_not_special hnan hpinf hninf) hneg, if_neg hzero]
    exact normalW_eq_ofInt_four_mul _

/-- A command whose result function is a logarithm meets the rules of that logarithm (R100, R180). -/
theorem exec_logSpec {i : Instr} {op : LogOp} (hop : ∀ a b, resultOf i a b = logW op a) (s : State) :
    ∃ t, exec i s = .next t ∧ logSpec (logRef op) (s.srcA i.rs1) (t.readF i.rd) := by
  obtain ⟨t, ht, hr⟩ := exec_writes_result i s
  refine ⟨t, ht, ?_⟩
  rw [hr, hop]
  exact logSpec_logW op _

/-- Settles O38: the result function of each command is the logarithm of its operation. -/
theorem logResults : Obligations.LogResults := by
  unfold Obligations.LogResults
  intro rd rs1 s
  have hln : ∀ a b, resultOf (.ln rd rs1) a b = logW .ln a := fun _ _ => rfl
  have hlog2 : ∀ a b, resultOf (.log2 rd rs1) a b = logW .log2 a := fun _ _ => rfl
  have hlog10 : ∀ a b, resultOf (.log10 rd rs1) a b = logW .log10 a := fun _ _ => rfl
  exact ⟨exec_logSpec hln s, exec_logSpec hlog2 s, exec_logSpec hlog10 s⟩

end Sys2Proof.Machine
end

section
/-!
PROOFS. The trigonometry `SIN`, `SINC`, `COSC`, `TANC` and `CFRAC` (R200 to R209).
`SIN`, `SINC` and `COSC` are Normal because their engines are bounded. Every product of the sine polynomial has a factor of at most 1
in Q.28, so rounding it grows no magnitude. The CORDIC components grow by at most the seed in each iteration, whatever the angle.
`TANC` tests the range of its quotient itself, and the circle fraction is a remainder modulo `2^30`.
-/

namespace Sys2Proof.Machine

open Sys2Proof.Claims

/-! ### The size of a rounded number -/

/-- Rounding to an integer does not pass an integer bound (R9). -/
theorem abs_rne_le {x b : Int} {n : Nat} (h : |x| ≤ b * 2 ^ n) : |rne x n| ≤ b := by
  have hpos : (0 : Int) < 2 ^ n := by positivity
  obtain ⟨hdist, -⟩ := rne_isNearestEven x n
  rw [abs_of_pos hpos, abs_mul, abs_two] at hdist
  have htriangle : |rne x n| * 2 ^ n ≤ |x| + |x - rne x n * 2 ^ n| := by
    calc |rne x n| * 2 ^ n = |x - (x - rne x n * 2 ^ n)| := by rw [sub_sub_cancel, abs_mul, abs_of_pos hpos]
      _ ≤ |x| + |x - rne x n * 2 ^ n| := abs_sub _ _
  have hscaled : 2 * |rne x n| * 2 ^ n ≤ (2 * b + 1) * 2 ^ n := by linarith
  have htwice : 2 * |rne x n| ≤ 2 * b + 1 := le_of_mul_le_mul_right hscaled hpos
  omega

/-- A factor of at most 1 in the fixed-point format of the product grows no magnitude (R9). -/
theorem abs_rne_mul_le {y : Int} {n : Nat} (hy : |y| ≤ 2 ^ n) (x : Int) : |rne (y * x) n| ≤ |x| := by
  apply abs_rne_le
  rw [abs_mul, mul_comm]
  exact mul_le_mul_of_nonneg_left hy (abs_nonneg x)

/-! ### The polynomial sine -/

theorem circleFraction_nonneg (m : Int) : 0 ≤ circleFraction m := Int.emod_nonneg _ (by decide)

theorem circleFraction_lt (m : Int) : circleFraction m < 2 ^ 30 := Int.emod_lt_of_pos _ (by decide)

/-- The reduction of a circle fraction is at most a quarter turn about 0 (R202). -/
theorem abs_sineReduce_le {u : Int} (hnonneg : 0 ≤ u) (hlt : u < 2 ^ 30) : |sineReduce u| ≤ 2 ^ 28 := by
  rw [abs_le, sineReduce]
  split_ifs <;> omega

/-- One stage of the polynomial: a constant less a product with a factor of at most 1 (R203). -/
theorem abs_sub_rne_mul_le {y : Int} {n : Nat} (hy : |y| ≤ 2 ^ n) (a x : Int) : |a - rne (y * x) n| ≤ |a| + |x| :=
  (abs_sub _ _).trans (add_le_add_right (abs_rne_mul_le hy x) _)

theorem abs_sinPoly_le {z : Int} (hz : |z| ≤ 2 ^ 28) : |sinPoly z| ≤ 2 ^ 30 := by
  have hC : |sinC| ≤ 2 ^ 28 := by decide
  have hsquare : |rne (z * z) 28| ≤ 2 ^ 28 := (abs_rne_mul_le hz z).trans hz
  calc |sinPoly z|
      ≤ |sinA - rne (rne (z * z) 28 * (sinB - rne (sinC * rne (z * z) 28) 28)) 28| := abs_rne_mul_le hz _
    _ ≤ |sinA| + |sinB - rne (sinC * rne (z * z) 28) 28| := abs_sub_rne_mul_le hsquare _ _
    _ ≤ |sinA| + (|sinB| + |rne (z * z) 28|) := add_le_add_right (abs_sub_rne_mul_le hC _ _) _
    _ ≤ |sinA| + (|sinB| + 2 ^ 28) := by grw [hsquare]
    _ ≤ 2 ^ 30 := by decide

/-- The polynomial sine is representable (R204). -/
theorem abs_sinFn_le (m : Int) : |sinFn m| ≤ 2 ^ 29 - 1 := by
  apply abs_rne_le
  have hpoly := abs_sinPoly_le (abs_sineReduce_le (circleFraction_nonneg m) (circleFraction_lt m))
  exact hpoly.trans (by decide)

/-! ### The CORDIC engine -/

/-- Both components of the vector are at most `b` in magnitude. -/
def Rotation.Within (r : Rotation) (b : Int) : Prop := |r.x| ≤ b ∧ |r.y| ≤ b

theorem abs_asr_le {x c : Int} {n : Nat} (h : |x| ≤ c * 2 ^ n) : |asr x n| ≤ c := by
  have hpos : (0 : Int) < 2 ^ n := by positivity
  obtain ⟨hlo, hhi⟩ := abs_le.1 h
  refine abs_le.2 ⟨Int.le_ediv_of_mul_le hpos ?_, Int.ediv_le_of_le_mul hpos hhi⟩
  rwa [neg_mul]

/-- An iteration adds or subtracts one shifted component in each component (R206). -/
theorem Rotation.Within.turn {r : Rotation} {b c : Int} {i : Nat} (h : r.Within b) (hb : b ≤ c * 2 ^ i) (angle : Int) :
    (r.turn i angle).Within (b + c) := by
  obtain ⟨hx, hy⟩ := h
  have hx' : |asr r.x i| ≤ c := abs_asr_le (hx.trans hb)
  have hy' : |asr r.y i| ≤ c := abs_asr_le (hy.trans hb)
  unfold Rotation.turn
  split_ifs
  · exact ⟨(abs_sub _ _).trans (add_le_add hx hy'), (abs_add_le _ _).trans (add_le_add hy hx')⟩
  · exact ⟨(abs_add_le _ _).trans (add_le_add hx hy'), (abs_sub _ _).trans (add_le_add hy hx')⟩

/-- Since `i + 1 ≤ 2^i`, a vector within `(i + 1) * c` before iteration `i` grows by at most `c` in it, and so on (R206). -/
theorem cordicFrom_within {c : Int} (hc : 0 ≤ c) (angles : List Int) (i : Nat) (r : Rotation)
    (h : r.Within ((i + 1) * c)) : (cordicFrom i r angles).Within ((i + angles.length + 1) * c) := by
  induction angles generalizing i r with
  | nil => simpa [cordicFrom] using h
  | cons angle rest ih =>
    have hpow : (i : Int) + 1 ≤ 2 ^ i := by exact_mod_cast Nat.lt_two_pow_self
    have hshift : ((i : Int) + 1) * c ≤ c * 2 ^ i := by
      rw [mul_comm]
      exact mul_le_mul_of_nonneg_left hpow hc
    have hnext : ((i : Int) + 1) * c + c = ((i + 1 : Nat) + 1) * c := by
      push_cast
      ring
    have hlength : (i : Int) + (angle :: rest).length + 1 = (i + 1 : Nat) + rest.length + 1 := by
      rw [List.length_cons]
      push_cast
      ring
    have hturn := h.turn hshift angle
    rw [hnext] at hturn
    rw [hlength]
    exact ih (i + 1) (r.turn i angle) hturn

theorem cordic_within (θ : Int) : (cordic θ).Within (25 * cordicSeed) := by
  have hseed : Rotation.Within ⟨cordicSeed, 0, θ⟩ cordicSeed :=
    ⟨(by decide : |cordicSeed| ≤ cordicSeed), (by decide : |0| ≤ cordicSeed)⟩
  exact cordicFrom_within (by decide) atanTable 0 _ (by simpa using hseed)

/-- The sine component of the engine is representable (R207, R208). -/
theorem abs_rne_cordic_y_le (θ : Int) : |rne (cordic θ).y 13| ≤ 2 ^ 29 - 1 := by
  obtain ⟨-, hy⟩ := cordic_within θ
  exact abs_rne_le (hy.trans (by decide))

/-! ### `SIN`, `SINC` and `COSC` -/

/-- The status rules that the sines and the cosine share (R200). -/
theorem trigSpec_trigW {fn : Int → Int} (hfn : ∀ m, |fn m| ≤ 2 ^ 29 - 1) (w : Word) : trigSpec fn w (trigW fn w) := by
  simp only [trigSpec, trigW, Bool.or_eq_true]
  split_ifs with hspecial
  · rfl
  · obtain ⟨hlo, hhi⟩ := abs_le.1 (hfn (mag w))
    exact isValue_normalW (by omega) hhi

/-- A command whose result function is a sine or cosine meets the rules of that function (R100, R200). -/
theorem exec_trigSpec {i : Instr} {fn : Int → Int} (hi : ∀ a b, resultOf i a b = trigW fn a)
    (hfn : ∀ m, |fn m| ≤ 2 ^ 29 - 1) (s : State) :
    ∃ t, exec i s = .next t ∧ trigSpec fn (s.srcA i.rs1) (t.readF i.rd) := by
  obtain ⟨t, ht, hr⟩ := exec_writes_result i s
  refine ⟨t, ht, ?_⟩
  rw [hr, hi]
  exact trigSpec_trigW hfn _

/-- Settles O39: the result functions of the three commands are representable for every magnitude. -/
theorem sineResults : Obligations.SineResults := by
  unfold Obligations.SineResults
  intro rd rs1 s
  have hsin : ∀ a b, resultOf (.sin rd rs1) a b = trigW sinFn a := fun _ _ => rfl
  have hsinc : ∀ a b, resultOf (.sinc rd rs1) a b = trigW sincFn a := fun _ _ => rfl
  have hcosc : ∀ a b, resultOf (.cosc rd rs1) a b = trigW coscFn a := fun _ _ => rfl
  exact ⟨exec_trigSpec hsin abs_sinFn_le s, exec_trigSpec hsinc (fun _ => abs_rne_cordic_y_le _) s,
    exec_trigSpec hcosc (fun _ => abs_rne_cordic_y_le _) s⟩

/-! ### `TANC` -/

theorem signedInfSpec_signedInf (sN : Int) : signedInfSpec sN (signedInf sN).word := by
  unfold signedInfSpec signedInf
  split_ifs <;> rfl

/-- The division answers the quotient only when it fits, so its word has that value (R209). -/
theorem tanSpec_tanDivide (sN cN : Int) : tanSpec sN cN (tanDivide sN cN).word := by
  simp only [tanSpec, tanDivide, fits, decide_eq_true_eq]
  split_ifs with hzero hfits
  · exact signedInfSpec_signedInf sN
  · obtain ⟨hlo, hhi⟩ := hfits
    exact isValue_normalW hlo hhi
  · exact signedInfSpec_signedInf sN

/-- The tangent of a magnitude whose circle fraction reduces to the angle `θ` (R209). The angle is a variable, so that elaboration
cannot try to evaluate the engine at it. -/
theorem tanSpec_tancFn {m θ : Int} (hθ : tanReduce (circleFraction m) = θ) :
    tanSpec (rne (cordic θ).y 13) (rne (cordic θ).x 13) (tancFn m).word := by
  rw [tancFn, hθ]
  exact tanSpec_tanDivide ..

/-- The upper half of the remainder modulo half a turn is counted back from half a turn (R209). -/
theorem tanReduce_cases (u : Int) :
    if u % 2 ^ 29 ≥ 2 ^ 28 then tanReduce u = u % 2 ^ 29 - 2 ^ 29 else tanReduce u = u % 2 ^ 29 := by
  split_ifs with hupper
  · exact if_pos hupper
  · exact if_neg hupper

theorem tancW_of_not_special {w : Word} (h : ¬(isNaN w = true ∨ isInf w = true)) : tancW w = (tancFn (mag w)).word := by
  rw [tancW, if_neg (by rwa [Bool.or_eq_true])]

/-- Settles O40: NaN on the special classes, else the division at the angle the reduction gives. -/
theorem tancResult : Obligations.TancResult := by
  unfold Obligations.TancResult
  intro rd rs1 s
  obtain ⟨t, ht, hr⟩ := exec_writes_result (.tanc rd rs1) s
  have hword : t.readF rd = tancW (s.srcA rs1) := hr
  refine ⟨t, ht, ?_⟩
  rw [hword]
  split
  case isTrue hspecial => exact if_pos (by rwa [Bool.or_eq_true])
  case isFalse hspecial =>
    rw [tancW_of_not_special hspecial]
    obtain ⟨θ, hθ⟩ : ∃ θ, tanReduce (circleFraction (mag (s.srcA rs1))) = θ := ⟨_, rfl⟩
    exact ⟨θ, hθ ▸ tanReduce_cases _, tanSpec_tancFn hθ⟩

/-! ### `CFRAC` -/

/-- The raw word of a circle fraction is that fraction (R201). -/
theorem toNat_cfracW (w : Word) : ((cfracW w).toNat : Int) = circleFraction (opMag w) := by
  have hnonneg := circleFraction_nonneg (opMag w)
  have hlt := circleFraction_lt (opMag w)
  rw [cfracW, BitVec.toNat_ofInt]
  omega

/-- Settles O41: the word is the circle fraction, a remainder modulo `2^30`. -/
theorem cfracResult : Obligations.CfracResult := by
  unfold Obligations.CfracResult
  intro rd rs1 s
  obtain ⟨t, ht, hr⟩ := exec_writes_result (.cfrac rd rs1) s
  have hword : t.readF rd = cfracW (s.srcA rs1) := hr
  have hlt := circleFraction_lt (opMag (s.srcA rs1))
  refine ⟨t, ht, ?_⟩
  rw [hword]
  rw [← toNat_cfracW] at hlt
  exact ⟨by rw [toNat_cfracW, circleFraction, quarterTurn], by exact_mod_cast hlt⟩

end Sys2Proof.Machine
end

section
/-!
PROOFS. The decoder and the encoder are inverse to each other, and the opcode map agrees with both (R65 to R71).
Both directions go through the five fields of the word: the decoder accepts the well-formed ones and assembles the command
from them, and the encoder concatenates the fields of a command.
-/

namespace Sys2Proof

/-! ### The decoder, by the fields of the word -/

/-- The command a decoded word gives is assembled from well-formed fields, and well-formed fields decode (R66, R67, R70). -/
theorem decode_eq_ok_iff {c : Word} {i : Instr} : decode c = .ok i ↔
    (commandFields c).wf = true ∧ ∃ op, (commandFields c).op = some op ∧
      assemble op (commandFields c).rd (commandFields c).rs1 (commandFields c).rs2 = i := by
  unfold decode Command.wf Command.opcodeDefined
  cases hop : (commandFields c).op with
  | none => simp [hop]
  | some op =>
    cases hz : (commandFields c).reservedClear <;> cases hs : (commandFields c).secondSourceOk <;> simp [hop, hz, hs]

/-- A command is assembled from its own fields, whatever stands for an absent second source (R66, R67). -/
theorem assemble_fields (i : Instr) : assemble i.opcode i.rd i.rs1 (i.rs2.getD 0) = i := by cases i <;> rfl

theorem wf_commandFields_encode (i : Instr) : (commandFields (encode i)).wf = true := by
  have hop : (commandFields (encode i)).op = some i.opcode := by rw [commandFields_encode]
  rw [Command.wf_of_op hop, commandFields_encode, ← rs2_isSome_iff_formR]
  cases i.rs2 <;> simp

theorem decode_encode (i : Instr) : decode (encode i) = .ok i := by
  rw [decode_eq_ok_iff]
  refine ⟨wf_commandFields_encode i, i.opcode, ?_⟩
  rw [commandFields_encode]
  exact ⟨rfl, assemble_fields i⟩

/-- Settles O1: the fields of the encoded word are well formed and are those the command is assembled from. -/
theorem decodeOfEncode : Obligations.DecodeOfEncode := by
  unfold Obligations.DecodeOfEncode
  exact decode_encode

/-! ### The encoder -/

/-- Encoding an assembled command concatenates its fields; in form `U` the second source must be zero (R65, R67). -/
theorem encode_assemble {op : Opcode} {rs2 : Reg} (h : op.form = .r ∨ rs2 = 0) (rd rs1 : Reg) :
    encode (assemble op rd rs1 rs2) = 0#17 ++ rs2 ++ rs1 ++ rd ++ op.code := by
  obtain hform | rfl := h
  · cases op with
    | add => rfl
    | sub => rfl
    | mul => rfl
    | div => rfl
    | mkval => rfl
    | _ => cases hform
  · cases op <;> rfl

/-- Settles O2: a well-formed word is the concatenation of its fields, and so is the encoded command. -/
theorem encodeOfDecode : Obligations.EncodeOfDecode := by
  unfold Obligations.EncodeOfDecode
  intro c i hdecode
  obtain ⟨hwf, op, hop, rfl⟩ := decode_eq_ok_iff.1 hdecode
  obtain ⟨hzero, hform⟩ := (Command.wf_of_op hop).1 hwf
  have hcode : c.extractLsb' 0 6 = op.code := opcodeOfCode_eq_some_iff.1 hop
  have hbits : c.extractLsb' 15 17 = 0#17 := hzero
  rw [encode_assemble hform, ← hcode, ← hbits]
  exact word_eq_append_fields c

/-! ### The opcode map -/

/-- Settles O4: each row of the map is the row of its opcode, which selects the well-formed words of that opcode. -/
theorem ownRowSelects : Obligations.OwnRowSelects := by
  unfold Obligations.OwnRowSelects
  intro i r hr
  rw [opcodeMap_eq_map_row] at hr
  obtain ⟨op, -, rfl⟩ := List.mem_map.1 hr
  rw [row_selects_iff, and_iff_left (wf_commandFields_encode i), commandFields_encode, Option.some_inj]
  exact eq_comm

/-- Settles O5: ten words, evaluated. -/
theorem sampleWords : Obligations.SampleWords := by
  unfold Obligations.SampleWords
  decide

end Sys2Proof
end

section
/-!
PROOFS. The steps of the block, one equation for each case, and what follows for its accesses and its commands (R25, R45,
R46, R100, R241, R260).
A step is known from the next input, from whether a command is in flight and from the cycles it has left. Completing a
command in flight is executing it on the operand words it latched, the registers of the idle block that accepted it.
-/

namespace Sys2Proof.Machine

open Sys2Proof.Claims

/-! ### One equation for each case of a step -/

theorem completeInFlight_of_idle {s : State} (h : s.inflight = none) : completeInFlight s = .next s := by
  simp only [completeInFlight, h]

/-- Executing the command in flight is completing it with its latched operands (R30, R100). -/
theorem exec_inflight {s : State} {c : InFlight} (h : s.inflight = some c) : exec c.instr s = .next (completed s c) := by
  rw [exec_eq_complete, State.srcA_inflight h, State.srcB_inflight h]
  rfl

theorem completeInFlight_of_busy {s : State} {c : InFlight} (h : s.inflight = some c) :
    completeInFlight s = .next (completed s c) := by
  simp only [completeInFlight, h, exec_inflight h]

theorem tick_of_idle {s : State} (h : s.inflight = none) : tick s = .next s := by
  simp only [tick, h]

/-- With two or more cycles to go a cycle counts one down (R25, R268). -/
theorem tick_of_waiting {s : State} {c : InFlight} (h : s.inflight = some c) (hleft : 2 ≤ c.left) :
    tick s = .next { s with inflight := some { c with left := c.left - 1 } } := by
  simp only [tick, h, if_neg (show ¬c.left ≤ 1 by omega)]

/-- The last cycle completes the command (R25, R268). -/
theorem tick_of_last {s : State} {c : InFlight} (h : s.inflight = some c) (hleft : c.left ≤ 1) :
    tick s = .next (completed s c) := by
  simp only [tick, h, if_pos hleft, completeInFlight_of_busy h]

theorem tickThenPerform_of_tick {s t : State} (a : Access) (h : tick s = .next t) :
    tickThenPerform a s = .next (t.perform a) := by
  simp only [tickThenPerform, h]

section
variable {s : State} {rest : List Input} {a : Access}

theorem step_of_no_input (hin : s.input = []) : step s = completeInFlight { s with resp := .none } := by
  simp only [step, cycle, hin]

theorem step_of_rst (hin : s.input = .rst :: rest) : step s = .next (State.resetCycle { s with input := rest }) := by
  simp only [step, cycle, hin]

theorem step_of_idle_input (hin : s.input = .idle :: rest) : step s = tick { s with input := rest, resp := .none } := by
  simp only [step, cycle, hin]

/-- While a command is in flight a held access waits for the completion (R46). -/
theorem step_of_held (hin : s.input = .access a :: rest) (hl : accessLegal a = true) (hb : s.busy = true)
    (hheld : heldWhileBusy a.off = true) : step s = completeInFlight { s with resp := .none } := by
  simp only [step, cycle, hin, serve, hl, hb, hheld, Bool.not_true, Bool.and_self, Bool.false_eq_true, if_false, if_true]

/-- An access that need not wait is performed in its cycle (R45, R46). -/
theorem step_of_performed (hin : s.input = .access a :: rest) (hl : accessLegal a = true)
    (hfree : (s.busy && heldWhileBusy a.off) = false) :
    step s = tickThenPerform a { s with input := rest, resp := .none } := by
  simp only [step, cycle, hin, serve, hl, hfree, Bool.not_true, Bool.false_eq_true, if_false]

end

/-! ### A command word on an idle block -/

theorem State.submit_of_legal (s : State) {w : Word} {i : Instr} (h : decode w = .ok i) :
    s.submit w = State.accept { s with cmdr := w } i := by
  simp only [State.submit, h]

/-- On an idle block a legal word written to `CMDR` is stored and accepted (R25, R28, R45, R100). -/
theorem step_legal_idle {s : State} {w : Word} {i : Instr} {rest : List Input} (hidle : s.inflight = none)
    (hin : nextWrite s 0x20 w rest) (hw : decode w = .ok i) :
    step s = .next { s with
      cmdr := w
      inflight := some ⟨i, s.readF i.rs1, i.rs2.map s.readF, Config.lat i.opcode⟩
      input := rest
      resp := .done } := by
  rw [step_access_idle hidle hin (accessLegal_write_cmdr w), State.perform_write, State.windowWrite_cmdr,
    State.submit_of_legal _ hw]
  rfl

/-- Completing an accepted command is executing it on the idle block that accepted it (R100). -/
theorem exec_idle {s : State} (hidle : s.inflight = none) (i : Instr) (left : Nat) :
    exec i s = .next (completed s ⟨i, s.readF i.rs1, i.rs2.map s.readF, left⟩) := by
  rw [← exec_accepted i s hidle left]
  exact exec_inflight (c := ⟨i, _, _, left⟩) rfl

/-- Settles O6: the one access an idle block performs at once is the write of the word. -/
theorem stepAcceptsLegalWord : Obligations.StepAcceptsLegalWord := by
  unfold Obligations.StepAcceptsLegalWord
  intro s w i rest hidle hin hw
  exact step_legal_idle hidle hin hw

/-- Settles O7: the same access with an illegal word. -/
theorem illegalCommandSetsIll : Obligations.IllegalCommandSetsIll := by
  unfold Obligations.IllegalCommandSetsIll
  intro s w rest hidle hin hw
  exact step_illegal_idle hidle hin hw

/-! ### The cycles of a command in flight -/

/-- Idle cycles that end before the last one only count down. -/
theorem run_waiting {s : State} {c : InFlight} {n : Nat} {rest : List Input} (hc : s.inflight = some c)
    (hin : s.input = List.replicate n .idle ++ rest) (hn : n < c.left) :
    ∃ re, run n s = .next { s with inflight := some { c with left := c.left - n }, input := rest, resp := re } := by
  induction n generalizing s c with
  | zero => exact ⟨s.resp, by rw [run_zero, Nat.sub_zero, ← hc, ← (show s.input = rest from hin)]⟩
  | succ n ih =>
    have hcount := tick_of_waiting (s := { s with input := List.replicate n .idle ++ rest, resp := .none }) hc (by omega)
    obtain ⟨re, hrun⟩ := ih (c := { c with left := c.left - 1 }) (s := { s with
      inflight := some { c with left := c.left - 1 }
      input := List.replicate n .idle ++ rest
      resp := .none }) rfl rfl (show n < c.left - 1 by omega)
    refine ⟨re, ?_⟩
    rw [run_succ_next n ((step_of_idle_input hin).trans hcount), hrun, Nat.sub_sub, Nat.add_comm]

/-- As many idle cycles as are left complete the command. -/
theorem run_to_completion {s : State} {c : InFlight} {n : Nat} {rest : List Input} (hc : s.inflight = some c)
    (hin : s.input = List.replicate (n + 1) .idle ++ rest) (hn : c.left = n + 1) :
    run (n + 1) s = .next (completed { s with input := rest, resp := .none } c) := by
  induction n generalizing s c with
  | zero =>
    rw [run_succ_next 0 ((step_of_idle_input hin).trans (tick_of_last hc hn.le))]
    rfl
  | succ n ih =>
    rw [run_succ_next (n + 1) ((step_of_idle_input hin).trans (tick_of_waiting hc (by omega))),
      ih rfl rfl (show c.left - 1 = n + 1 by omega)]
    rfl

/-- Settles O8: after the acceptance the idle cycles count down to the completion, which is the execution. -/
theorem commandLifecycle : Obligations.CommandLifecycle := by
  unfold Obligations.CommandLifecycle
  intro s w i n rest hidle hw hin
  have hstep := step_legal_idle hidle hin hw
  refine ⟨fun hn => ?_, fun hn => ?_⟩
  · obtain ⟨re, hrun⟩ := run_waiting (s := { s with
      cmdr := w
      inflight := some ⟨i, s.readF i.rs1, i.rs2.map s.readF, Config.lat i.opcode⟩
      input := List.replicate n .idle ++ rest
      resp := .done }) rfl rfl hn
    exact ⟨_, (run_succ_next n hstep).trans hrun, rfl, rfl, fun _ => ⟨rfl, rfl⟩, rfl, rfl, rfl⟩
  · obtain ⟨k, hk⟩ : ∃ k, n = k + 1 := ⟨Config.extraCycles i.opcode, hn⟩
    subst hk
    rw [run_succ_next _ hstep, run_to_completion rfl rfl hn.symm]
    exact (exec_idle (s := { s with cmdr := w, input := rest, resp := .none }) hidle i _).symm

/-! ### An access that waits, and one that does not -/

/-- When the host has nothing to ask, or only what must wait, the step is the completion (R30, R46, R268). -/
theorem step_of_no_progress {s : State} {c : InFlight} (hc : s.inflight = some c)
    (h : s.input = [] ∨ ∃ a rest, s.input = .access a :: rest ∧ accessLegal a = true ∧ heldWhileBusy a.off = true) :
    step s = .next (completed { s with resp := .none } c) := by
  obtain hin | ⟨a, rest, hin, hl, hheld⟩ := h
  · exact (step_of_no_input hin).trans (completeInFlight_of_busy hc)
  · exact (step_of_held hin hl (State.busy_eq_true.2 ⟨c, hc⟩) hheld).trans (completeInFlight_of_busy hc)

/-- Settles O9: the step after the acceptance is the completion. -/
theorem commandIsAtomic : Obligations.CommandIsAtomic := by
  unfold Obligations.CommandIsAtomic
  intro s w i rest hidle hw hin hrest
  rw [run_succ_next 1 (step_legal_idle hidle hin hw), run_succ_next 0 (step_of_no_progress rfl hrest)]
  exact (exec_idle (s := { s with cmdr := w, input := rest, resp := .none }) hidle i _).symm

/-- Settles O11: the step is the completion, and the access finds the block idle. -/
theorem heldAccess : Obligations.HeldAccess := by
  unfold Obligations.HeldAccess
  refine ⟨fun off halign => heldWhileBusy_iff halign, fun s c a rest hc hin hl hheld => ?_⟩
  have hstep := step_of_no_progress hc (.inr ⟨a, rest, hin, hl, hheld⟩)
  have hnext : step (completed { s with resp := .none } c) = _ := step_access_idle rfl hin hl
  refine ⟨_, exec_inflight hc, rfl, rfl, hstep, ?_⟩
  rw [run_succ_next 1 hstep, run_succ_next 0 hnext, run_zero]
  rfl

/-- Settles O12: the access is performed on what the cycle makes of the command in flight. -/
theorem unheldAccess : Obligations.UnheldAccess := by
  unfold Obligations.UnheldAccess
  intro s c a rest hc hin hl hfree
  have hstep := step_of_performed hin hl (by rw [hfree, Bool.and_false])
  refine ⟨fun hleft => ?_, fun hleft => ⟨_, exec_inflight hc, ?_⟩⟩
  · exact hstep.trans (tickThenPerform_of_tick a (tick_of_waiting hc hleft))
  · exact hstep.trans (tickThenPerform_of_tick a (tick_of_last hc hleft))

/-- Settles O10: the placed state is the one the write leads to, from which the next step is the completion. -/
theorem placedCommandRuns : Obligations.PlacedCommandRuns := by
  unfold Obligations.PlacedCommandRuns
  intro s w i hw hdecode
  have hmod : w % 2 ^ 32 = w := Nat.mod_eq_of_lt hw
  have hplaced : s.withFetchWord 32 w = { s with
      cmdr := BitVec.ofNat 32 w
      inflight := some ⟨i, s.readF i.rs1, i.rs2.map s.readF, Config.lat i.opcode⟩
      input := []
      resp := .done } := by
    simp only [State.withFetchWord, placeCommand, hmod, hdecode, State.submit_of_legal _ hdecode]
    rfl
  refine ⟨?_, ?_, ?_⟩
  · simp only [decodeTableWord, hmod, hdecode]
  · rw [hplaced, step_of_no_progress rfl (.inl rfl), exec_idle rfl i (Config.lat i.opcode)]
    rfl
  · rw [hplaced]
    exact step_legal_idle rfl rfl hdecode

/-! ### The window of an idle block -/

theorem accessLegal_of_aligned {a : Access} (hsize : a.size = .bits32) (halign : a.off.toNat % 4 = 0) :
    accessLegal a = true := by
  rw [← Bool.not_eq_false, accessLegal_eq_false]
  tauto

theorem step_read_idle {s : State} {off : BitVec 6} {rest : List Input} (hidle : s.inflight = none)
    (hin : nextRead s off rest) (halign : off.toNat % 4 = 0) :
    step s = .next { s with input := rest, resp := .data (s.windowWord off) } := by
  rw [step_access_idle hidle hin (accessLegal_of_aligned rfl halign)]
  rfl

theorem step_write_idle {s : State} {off : BitVec 6} {v : Word} {rest : List Input} (hidle : s.inflight = none)
    (hin : nextWrite s off v rest) (halign : off.toNat % 4 = 0) :
    step s = .next { State.windowWrite { s with input := rest, resp := .none } off v with resp := .done } :=
  step_access_idle hidle hin (accessLegal_of_aligned rfl halign)

section
variable (s : State) {off : BitVec 6} (v : Word)

theorem State.windowWord_f {i : Reg} (h : windowReg off = .f i) : s.windowWord off = s.readF i := by
  simp only [State.windowWord, h]

theorem State.windowWord_cmdr : s.windowWord 0x20 = s.cmdr := by
  simp [State.windowWord]

theorem State.windowWord_reserved (h : windowReg off = .reserved) : s.windowWord off = 0x00000000 := by
  simp only [State.windowWord, h]

theorem State.windowWrite_f {i : Reg} (h : windowReg off = .f i) : s.windowWrite off v = s.writeF i v := by
  simp only [State.windowWrite, h]

theorem State.windowWrite_reserved (h : windowReg off = .reserved) : s.windowWrite off v = s := by
  simp only [State.windowWrite, h]

end

/-- Settles O14: the read answers the window's word, which is the one its offset names. -/
theorem windowReads : Obligations.WindowReads := by
  unfold Obligations.WindowReads
  intro s off rest hidle hin halign
  refine ⟨_, step_read_idle hidle hin halign, fun i hi => ?_, ?_, ?_, fun hres => ?_⟩
  · exact s.windowWord_f ((windowReg_eq_f halign i).2 hi)
  · rintro rfl
    exact s.windowWord_cmdr
  · rintro rfl
    exact s.windowWord_status
  · exact s.windowWord_reserved ((windowReg_eq_other halign).2.2.2 hres)

/-- Settles O15: the write does to the state what its offset names. -/
theorem windowWrites : Obligations.WindowWrites := by
  unfold Obligations.WindowWrites
  intro s off v rest hidle hin halign
  rw [step_write_idle hidle hin halign]
  refine ⟨fun i hi => ?_, ?_, fun hres => ?_⟩
  · rw [State.windowWrite_f _ v ((windowReg_eq_f halign i).2 hi)]
    rfl
  · rintro rfl
    rw [State.windowWrite_status]
    rfl
  · rw [State.windowWrite_reserved _ v ((windowReg_eq_other halign).2.2.2 hres)]

/-- The offset of `F[i]` is `4*i` (R41, R75). -/
theorem offset_of_script (i : Reg) : (0#1 ++ i ++ 0#2).toNat % 4 = 0 ∧ windowReg (0#1 ++ i ++ 0#2) = .f i := by
  revert i
  decide

/-- Settles O17: the read finds what the write left in the register file. -/
theorem hostWriteThenRead : Obligations.HostWriteThenRead := by
  unfold Obligations.HostWriteThenRead
  intro s i j v rest hidle hin
  obtain ⟨hialign, hireg⟩ := offset_of_script i
  obtain ⟨hjalign, hjreg⟩ := offset_of_script j
  have hwrite := step_write_idle (rest := scriptRD j :: rest) hidle hin hialign
  rw [State.windowWrite_f _ v hireg] at hwrite
  have hread := step_read_idle (s := { s.writeF i v with input := scriptRD j :: rest, resp := .done }) hidle rfl hjalign
  refine ⟨_, (run_succ_next 1 hwrite).trans (run_succ_next 0 hread), ?_, rfl, rfl, rfl, hidle⟩
  rw [State.windowWord_f _ hjreg]
  exact congrArg Response.data (State.readF_writeF ..)

/-! ### Reset, and a block with nothing to do -/

/-- Settles O18: the state after the cycle is the reset state with the later inputs. -/
theorem resetCycle : Obligations.ResetCycle := by
  unfold Obligations.ResetCycle
  intro s rest hin
  obtain ⟨hstatus, -⟩ := statusRegister
  refine ⟨_, step_of_rst hin, rfl, rfl, rfl, hstatus, fun r => State.isWritten_resetCycle _ r, rfl, fun s' hs' => ?_⟩
  rw [step_of_rst hin, step_of_rst (hs'.trans hin)]
  rfl

/-- Settles O19: the fields of the reset state, evaluated. -/
theorem resetState : Obligations.ResetState := by
  unfold Obligations.ResetState
  decide

/-- Settles O20: neither a completion nor a clock cycle changes an idle block. -/
theorem idleBlock : Obligations.IdleBlock := by
  unfold Obligations.IdleBlock
  intro s hidle
  refine ⟨fun hin => ?_, fun rest hin => ?_⟩
  · rw [step_of_no_input hin]
    exact completeInFlight_of_idle hidle
  · rw [step_of_idle_input hin]
    exact tick_of_idle hidle

end Sys2Proof.Machine
end

section
/-!
PROOFS. What every step keeps, and what a change of a register shows (R22, R25, R28, R30, R46, R100, R265).
Only an idle block accepts a command or lets the host write a value register; with a command in flight the accesses that
are performed touch neither `CMDR` nor a value register. So what was latched at acceptance stays what `CMDR` and the source
registers say.
-/

namespace Sys2Proof.Machine

open Sys2Proof.Claims

/-! ### The command in flight is the one `CMDR` holds -/

theorem State.inv_of_idle {s : State} (h : s.inflight = none) : s.Inv := by
  intro c hc
  cases h.symm.trans hc

/-- The invariant speaks of the register file, of `CMDR` and of the command in flight only. -/
theorem State.Inv.congr {s t : State} (h : s.Inv) (hf : t.f = s.f) (hcmdr : t.cmdr = s.cmdr)
    (hfl : t.inflight = s.inflight) : t.Inv := by
  have hread : t.readF = s.readF := by
    funext r
    simp only [State.readF, hf]
  intro c hc
  rw [hcmdr, hread]
  exact h c (hfl.symm.trans hc)

/-- A command that waits keeps what it latched; only its count goes down (R25, R30). -/
theorem State.Inv.waits {s : State} {c : InFlight} (h : s.Inv) (hc : s.inflight = some c) (hleft : 2 ≤ c.left) :
    State.Inv { s with inflight := some { c with left := c.left - 1 } } := by
  obtain ⟨hdecode, ha, hb, -, hlat⟩ := h c hc
  intro d hd
  cases hd
  exact ⟨hdecode, ha, hb, by simp only; omega, by simp only; omega⟩

/-- An accepted command has just latched what its source registers hold (R30, R100). -/
theorem State.inv_accept {s : State} {i : Instr} (h : decode s.cmdr = .ok i) : (s.accept i).Inv := by
  intro c hc
  cases hc
  exact ⟨h, rfl, rfl, Nat.succ_pos _, le_rfl⟩

theorem State.inv_submit {s : State} (w : Word) (hidle : s.inflight = none) : (s.submit w).Inv := by
  obtain ⟨i, hw, h⟩ | ⟨e, -, h⟩ := s.submit_cases w
  · rw [h]
    exact State.inv_accept hw
  · rw [h]
    exact State.inv_of_idle hidle

/-- On an idle block a performed access leaves the block idle or submits a command word (R45). -/
theorem State.inv_perform_idle {s : State} {a : Access} (hidle : s.inflight = none) (hl : accessLegal a = true) :
    (s.perform a).Inv := by
  obtain ⟨r, h⟩ | ⟨v, -, h⟩ | ⟨w, -, h⟩ | ⟨off, i, v, -, -, h⟩ := s.perform_cases hl <;> rw [h]
  · exact State.inv_of_idle hidle
  · exact State.inv_of_idle hidle
  · exact (State.inv_submit w hidle).congr rfl rfl rfl
  · exact State.inv_of_idle hidle

/-- An access that is not held leaves `CMDR`, the register file and the command in flight (R46). -/
theorem State.perform_unheld_keeps {a : Access} (s : State) (hl : accessLegal a = true)
    (hu : heldWhileBusy a.off = false) :
    (s.perform a).f = s.f ∧ (s.perform a).cmdr = s.cmdr ∧ (s.perform a).inflight = s.inflight := by
  obtain ⟨r, h⟩ | ⟨v, -, h⟩ := s.perform_unheld_cases hl hu <;> rw [h] <;> exact ⟨rfl, rfl, rfl⟩

theorem State.Inv.perform_unheld {s : State} {a : Access} (h : s.Inv) (hl : accessLegal a = true)
    (hu : heldWhileBusy a.off = false) : (s.perform a).Inv := by
  obtain ⟨hf, hcmdr, hfl⟩ := s.perform_unheld_keeps hl hu
  exact h.congr hf hcmdr hfl

/-- Settles O21: by the cases of a step; where the block is left idle the invariant has nothing to say. -/
theorem inFlightStaysConsistent : Obligations.InFlightStaysConsistent := by
  unfold Obligations.InFlightStaysConsistent
  intro s t hinv hstep
  obtain ⟨rest, -, rfl⟩ | ⟨inp, hidle, rfl⟩ | ⟨c, inp, hc, hleft, rfl⟩ | ⟨c, inp, -, rfl⟩ |
    ⟨a, rest, -, hl, hidle, rfl⟩ | ⟨a, rest, c, -, hl, hu, hc, hleft, rfl⟩ | ⟨a, rest, c, -, hl, hu, -, rfl⟩ :=
    step_next_cases hstep
  · exact State.inv_of_idle rfl
  · exact State.inv_of_idle hidle
  · exact (hinv.waits hc hleft).congr rfl rfl rfl
  · exact State.inv_of_idle rfl
  · exact State.inv_perform_idle hidle hl
  · have hwaits : State.Inv { s with
        inflight := some { c with left := c.left - 1 }, input := rest, resp := .none } :=
      (hinv.waits hc hleft).congr rfl rfl rfl
    exact hwaits.perform_unheld hl hu
  · exact (State.inv_of_idle rfl : (completed { s with input := rest, resp := .none } c).Inv).perform_unheld hl hu

/-- Settles O22: nothing is in flight after reset. -/
theorem resetIsConsistent : Obligations.ResetIsConsistent := by
  unfold Obligations.ResetIsConsistent
  exact State.inv_of_idle rfl

/-! ### What changes `CMDR` and a value register -/

/-- A performed access keeps `CMDR` or is the write of it (R28, R45). -/
theorem State.perform_cmdr_cases {a : Access} (s : State) (hl : accessLegal a = true) :
    (s.perform a).cmdr = s.cmdr ∨ ∃ w, a = .write .bits32 0x20 w ∧ (s.perform a).cmdr = w := by
  obtain ⟨r, h⟩ | ⟨v, -, h⟩ | ⟨w, ha, h⟩ | ⟨off, i, v, -, -, h⟩ := s.perform_cases hl <;> rw [h]
  · exact .inl rfl
  · exact .inl rfl
  · exact .inr ⟨w, ha, s.submit_cmdr w⟩
  · exact .inl rfl

/-- Settles O24: the steps other than a reset cycle and a write of `CMDR` keep it. -/
theorem cmdrChanges : Obligations.CmdrChanges := by
  unfold Obligations.CmdrChanges
  intro s t hstep hne
  obtain ⟨rest, hin, rfl⟩ | ⟨inp, -, rfl⟩ | ⟨c, inp, -, -, rfl⟩ | ⟨c, inp, -, rfl⟩ |
    ⟨a, rest, hin, hl, hidle, rfl⟩ | ⟨a, rest, c, -, hl, hu, -, -, rfl⟩ | ⟨a, rest, c, -, hl, hu, -, rfl⟩ :=
    step_next_cases hstep
  · exact .inl ⟨⟨rest, hin⟩, rfl⟩
  · exact absurd rfl hne
  · exact absurd rfl hne
  · exact absurd rfl hne
  · obtain hkept | ⟨w, rfl, hw⟩ := State.perform_cmdr_cases { s with input := rest, resp := .none } hl
    · exact absurd hkept hne
    · exact .inr ⟨hidle, w, rest, hin, hw⟩
  · obtain ⟨-, hkept, -⟩ := State.perform_unheld_keeps _ hl hu
    exact absurd hkept hne
  · obtain ⟨-, hkept, -⟩ := State.perform_unheld_keeps _ hl hu
    exact absurd hkept hne

theorem State.readF_congr {s t : State} (h : t.f = s.f) (r : Reg) : t.readF r = s.readF r := by
  simp only [State.readF, h]

/-- A performed access keeps `F[r]` or is the write of it (R22, R45). -/
theorem State.perform_readF_cases {a : Access} (s : State) (hl : accessLegal a = true) (r : Reg) :
    (s.perform a).readF r = s.readF r ∨
    ∃ off v, a = .write .bits32 off v ∧ off.toNat = 4 * r.toNat ∧ (s.perform a).readF r = v := by
  obtain ⟨re, h⟩ | ⟨v, -, h⟩ | ⟨w, -, h⟩ | ⟨off, i, v, ha, hoff, h⟩ := s.perform_cases hl <;> rw [h]
  · exact .inl rfl
  · exact .inl rfl
  · exact .inl (s.readF_submit w r)
  · have hread : (s.writeF i v).readF r = if i = r then v else s.readF r := s.readF_writeF i r v
    split_ifs at hread with hr
    · exact .inr ⟨off, v, ha, hr ▸ hoff, hread⟩
    · exact .inl hread

/-- A completion changes the destination register only (R100). -/
theorem rd_eq_of_readF_completed_ne {s : State} {c : InFlight} {r : Reg} (h : (completed s c).readF r ≠ s.readF r) :
    c.instr.rd = r := by
  by_contra hr
  exact h ((State.readF_complete ..).trans (if_neg hr))

/-- Settles O25: of the steps other than a reset cycle only a completion and the host's write touch the register file. -/
theorem registerChanges : Obligations.RegisterChanges := by
  unfold Obligations.RegisterChanges
  intro s t r hstep hne
  obtain ⟨rest, hin, rfl⟩ | ⟨inp, -, rfl⟩ | ⟨c, inp, -, -, rfl⟩ | ⟨c, inp, hc, rfl⟩ |
    ⟨a, rest, hin, hl, hidle, rfl⟩ | ⟨a, rest, c, -, hl, hu, -, -, rfl⟩ | ⟨a, rest, c, -, hl, hu, hc, rfl⟩ :=
    step_next_cases hstep
  · exact .inl ⟨rest, hin⟩
  · exact absurd rfl hne
  · exact absurd rfl hne
  · exact .inr (.inr ⟨c, hc, rd_eq_of_readF_completed_ne hne, rfl⟩)
  · obtain hkept | ⟨off, v, rfl, hoff, hv⟩ := State.perform_readF_cases { s with input := rest, resp := .none } hl r
    · exact absurd hkept hne
    · exact .inr (.inl ⟨hidle, off, v, rest, hin, hoff, hv⟩)
  · obtain ⟨hkept, -, -⟩ := State.perform_unheld_keeps _ hl hu
    exact absurd (State.readF_congr hkept r) hne
  · obtain ⟨hkept, -, hfl⟩ := State.perform_unheld_keeps _ hl hu
    rw [State.readF_congr hkept r] at hne
    exact .inr (.inr ⟨c, hc, rd_eq_of_readF_completed_ne hne, hfl⟩)

end Sys2Proof.Machine
end

section
/-!
PROOFS. The contents of a register not written since reset cannot matter to a step that reads none (R33).
Two states that agree but for such registers take the same branch of every operation, and each operation they then perform
keeps the agreement: a register written is written with the same word in both, and a register read is one they agree on.
-/

namespace Sys2Proof.Machine

open Sys2Proof.Claims

/-! ### The operations keep the agreement -/

section
variable {s t : State} (h : s.agreeOnWritten t)
include h

theorem State.agreeOnWritten.busy_eq : s.busy = t.busy := by
  obtain ⟨-, -, -, hfl, -⟩ := h
  rw [State.busy, State.busy, hfl]

theorem State.agreeOnWritten.await (re : Response) : State.agreeOnWritten { s with resp := re } { t with resp := re } := by
  obtain ⟨hw, hcmdr, hill, hfl, -, hin, hread⟩ := h
  exact ⟨hw, hcmdr, hill, hfl, rfl, hin, hread⟩

theorem State.agreeOnWritten.consume (inp : List Input) (re : Response) :
    State.agreeOnWritten { s with input := inp, resp := re } { t with input := inp, resp := re } := by
  obtain ⟨hw, hcmdr, hill, hfl, -, -, hread⟩ := h
  exact ⟨hw, hcmdr, hill, hfl, rfl, rfl, hread⟩

theorem State.agreeOnWritten.withInflight (fl : Option InFlight) :
    State.agreeOnWritten { s with inflight := fl } { t with inflight := fl } := by
  obtain ⟨hw, hcmdr, hill, -, hre, hin, hread⟩ := h
  exact ⟨hw, hcmdr, hill, rfl, hre, hin, hread⟩

theorem State.agreeOnWritten.withCmdr (w : Word) : State.agreeOnWritten { s with cmdr := w } { t with cmdr := w } := by
  obtain ⟨hw, -, hill, hfl, hre, hin, hread⟩ := h
  exact ⟨hw, rfl, hill, hfl, hre, hin, hread⟩

theorem State.agreeOnWritten.illegalCommand : s.illegalCommand.agreeOnWritten t.illegalCommand := by
  obtain ⟨hw, hcmdr, -, hfl, hre, hin, hread⟩ := h
  exact ⟨hw, hcmdr, rfl, hfl, hre, hin, hread⟩

theorem State.agreeOnWritten.writeStatus (v : Word) : (s.writeStatus v).agreeOnWritten (t.writeStatus v) := by
  obtain ⟨hw, hcmdr, hill, hfl, hre, hin, hread⟩ := h
  exact ⟨hw, hcmdr, by rw [State.writeStatus_ill, State.writeStatus_ill, hill], hfl, hre, hin, hread⟩

/-- The register written holds the same word in both states, and now counts as written in both (R33). -/
theorem State.agreeOnWritten.writeF (i : Reg) (v : Word) : (s.writeF i v).agreeOnWritten (t.writeF i v) := by
  obtain ⟨hw, hcmdr, hill, hfl, hre, hin, hread⟩ := h
  refine ⟨by simp only [State.writeF, hw], hcmdr, hill, hfl, hre, hin, fun j hj => ?_⟩
  rw [State.readF_writeF, State.readF_writeF]
  split_ifs with hij
  · rfl
  · rw [State.isWritten_writeF, decide_eq_false hij, Bool.false_or] at hj
    exact hread j hj

theorem State.agreeOnWritten.completed (c : InFlight) : (completed s c).agreeOnWritten (completed t c) :=
  (h.writeF _ _).withInflight none

/-- A command accepted in both states latches the same operands when its source registers are written (R100). -/
theorem State.agreeOnWritten.accept {i : Instr} (hi : ∀ r ∈ sourceRegs i, s.isWritten r = true) :
    (s.accept i).agreeOnWritten (t.accept i) := by
  obtain ⟨-, -, -, -, -, -, hread⟩ := id h
  have hrs1 : s.readF i.rs1 = t.readF i.rs1 := hread _ (hi _ List.mem_cons_self)
  have hrs2 : i.rs2.map s.readF = i.rs2.map t.readF := by
    refine Option.map_congr fun r hr => hread r (hi r (List.mem_cons_of_mem _ ?_))
    exact Option.mem_toList.2 hr
  have haccept := h.withInflight (s.accept i).inflight
  rw [State.accept_inflight] at haccept
  simpa only [State.accept, ← hrs1, ← hrs2] using haccept

/-- Both states submit the same word, and so both accept its command or both set `ILL` (R241). -/
theorem State.agreeOnWritten.submit {w : Word}
    (hw : ∀ i, decode w = .ok i → ∀ r ∈ sourceRegs i, s.isWritten r = true) :
    (s.submit w).agreeOnWritten (t.submit w) := by
  unfold State.submit
  cases hdecode : decode w with
  | ok i => exact (h.withCmdr w).accept (hw i hdecode)
  | error e => exact (h.withCmdr w).illegalCommand

end

/-! ### A performed access -/

/-- The access reads written registers only, be it to answer it or to accept a command (R33, R100). -/
def ReadsWritten (s : State) : Access → Prop
  | .read _ off => ∀ i, windowReg off = .f i → s.isWritten i = true
  | .write _ off w => windowReg off = .cmdr → ∀ i, decode w = .ok i → ∀ r ∈ sourceRegs i, s.isWritten r = true

/-- An access that is not held names neither a value register nor `CMDR` (R46). -/
theorem readsWritten_of_unheld (s : State) {a : Access} (hu : heldWhileBusy a.off = false) : ReadsWritten s a := by
  cases a with
  | read z off =>
    intro i hi
    simp [Access.off, heldWhileBusy, hi] at hu
  | write z off w =>
    intro hcmdr
    simp [Access.off, heldWhileBusy, hcmdr] at hu

/-- A safe step that performs an access reads written registers only. -/
theorem readsWritten_of_safeNext {s : State} {a : Access} {rest : List Input} (hin : s.input = .access a :: rest)
    (hl : accessLegal a = true) (hfree : (s.busy && heldWhileBusy a.off) = false) (hsafe : s.safeNext = true) :
    ReadsWritten s a := by
  unfold State.safeNext State.readsNext at hsafe
  rw [hin] at hsafe
  cases a with
  | read z off =>
    intro i hi
    simpa [hl, hfree, hi] using hsafe
  | write z off w =>
    intro hcmdr i hi
    simpa [hl, hfree, hcmdr, hi] using hsafe

theorem State.agreeOnWritten.windowWord_eq {s t : State} (h : s.agreeOnWritten t) {z : Width} {off : BitVec 6}
    (ha : ReadsWritten s (.read z off)) : s.windowWord off = t.windowWord off := by
  have hbusy := h.busy_eq
  obtain ⟨-, hcmdr, hill, -, -, -, hread⟩ := h
  unfold State.windowWord
  cases hreg : windowReg off with
  | f i => exact hread i (ha i hreg)
  | cmdr => exact hcmdr
  | status => simp only [State.statusWord, hill, hbusy]
  | reserved => rfl

theorem State.agreeOnWritten.windowWrite {s t : State} (h : s.agreeOnWritten t) {z : Width} {off : BitVec 6} {v : Word}
    (ha : ReadsWritten s (.write z off v)) : (s.windowWrite off v).agreeOnWritten (t.windowWrite off v) := by
  unfold State.windowWrite
  cases hreg : windowReg off with
  | f i => exact h.writeF i v
  | cmdr => exact h.submit (ha hreg)
  | status => exact h.writeStatus v
  | reserved => exact h

theorem State.agreeOnWritten.perform {s t : State} (h : s.agreeOnWritten t) {a : Access} (ha : ReadsWritten s a) :
    (s.perform a).agreeOnWritten (t.perform a) := by
  cases a with
  | read z off =>
    rw [State.perform_read, State.perform_read, h.windowWord_eq ha]
    exact h.await _
  | write z off v => exact (h.windowWrite ha).await .done

/-! ### A step -/

/-- Where the first outcome is a next state so is the second, and the two states agree but for unwritten registers. -/
def AnswersAgree (o p : Host.Outcome State Fault Refusal) : Prop :=
  ∀ s', o = .next s' → ∃ t', p = .next t' ∧ s'.agreeOnWritten t'

theorem AnswersAgree.next {s t : State} (h : s.agreeOnWritten t) : AnswersAgree (.next s) (.next t) := by
  intro s' hs
  cases hs
  exact ⟨t, rfl, h⟩

section
variable {s t : State} (h : s.agreeOnWritten t)
include h

theorem State.agreeOnWritten.completeInFlight_agree : AnswersAgree (completeInFlight s) (completeInFlight t) := by
  obtain ⟨-, -, -, hfl, -⟩ := id h
  cases hs : s.inflight with
  | none =>
    rw [completeInFlight_of_idle hs, completeInFlight_of_idle (hfl.symm.trans hs)]
    exact .next h
  | some c =>
    rw [completeInFlight_of_busy hs, completeInFlight_of_busy (hfl.symm.trans hs)]
    exact .next (h.completed c)

theorem State.agreeOnWritten.tick_agree : AnswersAgree (tick s) (tick t) := by
  obtain ⟨-, -, -, hfl, -⟩ := id h
  cases hs : s.inflight with
  | none =>
    rw [tick_of_idle hs, tick_of_idle (hfl.symm.trans hs)]
    exact .next h
  | some c =>
    have ht : t.inflight = some c := hfl.symm.trans hs
    obtain hleft | hleft := le_or_gt c.left 1
    · rw [tick_of_last hs hleft, tick_of_last ht hleft]
      exact .next (h.completed c)
    · rw [tick_of_waiting hs hleft, tick_of_waiting ht hleft]
      exact .next (h.withInflight _)

theorem State.agreeOnWritten.tickThenPerform_agree {a : Access} (ha : ∀ u, tick s = .next u → ReadsWritten u a) :
    AnswersAgree (tickThenPerform a s) (tickThenPerform a t) := by
  obtain ⟨u, hu, hp⟩ := tickThenPerform_cases a s
  obtain ⟨v, hv, huv⟩ := h.tick_agree u hu
  rw [hp, tickThenPerform_of_tick a hv]
  exact .next (huv.perform (ha u hu))

/-- Both states serve the access in the same way: a bus error, a wait, or its effect (R44, R46, R245). -/
theorem State.agreeOnWritten.step_access (hsafe : s.safeNext = true) {a : Access} {rest : List Input}
    (hin : s.input = .access a :: rest) : AnswersAgree (step s) (step t) := by
  obtain ⟨-, -, -, -, -, hinput, -⟩ := id h
  have hint : t.input = .access a :: rest := hinput.symm.trans hin
  have hbusy := h.busy_eq
  cases hl : accessLegal a with
  | false =>
    rw [step_illegal_access hin hl]
    exact nofun
  | true =>
    cases hfree : s.busy && heldWhileBusy a.off with
    | true =>
      obtain ⟨hb, hheld⟩ := Bool.and_eq_true_iff.1 hfree
      rw [step_of_held hin hl hb hheld, step_of_held hint hl (hbusy.symm.trans hb) hheld]
      exact (h.await .none).completeInFlight_agree
    | false =>
      rw [step_of_performed hin hl hfree, step_of_performed hint hl (hbusy ▸ hfree)]
      refine (h.consume rest .none).tickThenPerform_agree fun u hu => ?_
      obtain hb | hunheld := Bool.and_eq_false_iff.1 hfree
      · have hidle : tick { s with input := rest, resp := .none } = _ := tick_of_idle (State.busy_eq_false.1 hb)
        cases hidle.symm.trans hu
        exact readsWritten_of_safeNext (s := s) hin hl hfree hsafe
      · exact readsWritten_of_unheld u hunheld

end

/-- Settles O26: both states take the step their common next input asks for. -/
theorem unwrittenRegistersCannotMatter : Obligations.UnwrittenRegistersCannotMatter := by
  unfold Obligations.UnwrittenRegistersCannotMatter
  intro s t h hsafe
  obtain ⟨-, -, -, -, -, hinput, -⟩ := id h
  change AnswersAgree (step s) (step t)
  cases hin : s.input with
  | nil =>
    rw [step_of_no_input hin, step_of_no_input (hinput.symm.trans hin)]
    exact (h.await .none).completeInFlight_agree
  | cons next rest =>
    have hint : t.input = next :: rest := hinput.symm.trans hin
    cases next with
    | rst =>
      rw [step_of_rst hin, step_of_rst hint]
      exact .next ⟨rfl, rfl, rfl, rfl, rfl, rfl, fun _ _ => rfl⟩
    | idle =>
      rw [step_of_idle_input hin, step_of_idle_input hint]
      exact (h.consume rest .none).tick_agree
    | access a => exact h.step_access hsafe hin

end Sys2Proof.Machine
end

section
/-!
PROOFS. What every command does, and what its result can be (R13, R100, R104, R106, R240, R244).
Executing a command is one completion with its result word, so what it leaves alone is said once for all commands. What
holds of every result is read off the result functions: their table on the special classes, and the words `pack` and `norm`
can build.
-/

namespace Sys2Proof.Machine

open Sys2Proof.Claims

/-! ### The frame of a command, and its operands -/

/-- Settles O27: a command is the completion that writes its result word. -/
theorem commandCompletes : Obligations.CommandCompletes := by
  unfold Obligations.CommandCompletes
  intro i s
  refine ⟨_, exec_eq_complete i s, rfl, ?_, fun r hr => ⟨?_, ?_⟩, rfl, rfl, rfl, rfl⟩
  · simp
  · rw [State.readF_complete, if_neg hr.symm]
  · rw [State.isWritten_complete, decide_eq_false hr.symm, Bool.false_or]

/-- Settles O28: the two readings of an operand, on an idle block and of a command in flight. -/
theorem operandsOfCommand : Obligations.OperandsOfCommand := by
  unfold Obligations.OperandsOfCommand
  intro s r
  refine ⟨fun hidle => ⟨State.srcA_idle hidle r, State.srcB_idle hidle r⟩, fun c hc => ?_⟩
  refine ⟨State.srcA_inflight hc r, fun b hb => ?_⟩
  rw [State.srcB_inflight hc, hb, Option.getD_some]

/-- A command of form `U` has one operand (R67, R100). -/
theorem resultOf_of_rs2_none {i : Instr} (h : i.rs2 = none) (a b b' : Word) : resultOf i a b = resultOf i a b' := by
  cases i with
  | add => cases h
  | sub => cases h
  | mul => cases h
  | div => cases h
  | mkval => cases h
  | _ => rfl

/-- Settles O29: the result function is applied to the same operand words in both states. -/
theorem resultIsPure : Obligations.ResultIsPure := by
  unfold Obligations.ResultIsPure
  intro i s t ha hb
  obtain ⟨s', hs, hs'⟩ := exec_writes_result i s
  obtain ⟨t', ht, ht'⟩ := exec_writes_result i t
  refine ⟨s', t', hs, ht, ?_⟩
  rw [hs', ht', ha]
  cases hrs2 : i.rs2 with
  | none => exact resultOf_of_rs2_none hrs2 ..
  | some r => rw [Option.getD_some, hb r hrs2]

/-! ### NaN operands -/

theorem addW_nan {a b : Word} (h : isNaN a = true ∨ isNaN b = true) : addW a b = nanW := by
  rw [addW, (Bool.or_eq_true ..).mpr h]
  rfl

theorem subW_nan {a b : Word} (h : isNaN a = true ∨ isNaN b = true) : subW a b = nanW := by
  obtain ⟨-, hnan, -, -⟩ := classTests_negW b
  exact addW_nan (by rwa [hnan])

theorem mulW_nan {a b : Word} (h : isNaN a = true ∨ isNaN b = true) : mulW a b = nanW := by
  rw [mulW, (Bool.or_eq_true ..).mpr h, combine_nan]

theorem divW_nan {a b : Word} (h : isNaN a = true ∨ isNaN b = true) : divW a b = nanW := by
  rw [divW, (Bool.or_eq_true ..).mpr h, Bool.true_or, combine_nan]

/-- A NaN operand gives the canonical NaN; the second operand counts in form `R` only (R106, R244). -/
theorem resultOf_nan {i : Instr} (hi : propagatesNaN i = true) {a b : Word}
    (h : isNaN a = true ∨ (i.rs2.isSome = true ∧ isNaN b = true)) : resultOf i a b = nanW := by
  have hfirst (hform : i.rs2 = none) : statusField a = 0b01 := by
    simp only [hform, Option.isSome_none, Bool.false_eq_true, false_and, or_false] at h
    exact eq_of_beq h
  have heither (hform : i.rs2.isSome = true) : isNaN a = true ∨ isNaN b = true := by
    simpa only [hform, true_and] using h
  cases i with
  | neg => exact negW_special.nan a (hfirst rfl)
  | abs => exact absW_special.nan a (hfirst rfl)
  | add => exact addW_nan (heither rfl)
  | sub => exact subW_nan (heither rfl)
  | mul => exact mulW_nan (heither rfl)
  | div => exact divW_nan (heither rfl)
  | sqrt => exact sqrtW_special.nan a (hfirst rfl)
  | exp => exact expW_special.nan a (hfirst rfl)
  | ln => exact (logW_special .ln).nan a (hfirst rfl)
  | log2 => exact (logW_special .log2).nan a (hfirst rfl)
  | log10 => exact (logW_special .log10).nan a (hfirst rfl)
  | sin => exact (trigW_special sinFn).nan a (hfirst rfl)
  | sinc => exact (trigW_special sincFn).nan a (hfirst rfl)
  | cosc => exact (trigW_special coscFn).nan a (hfirst rfl)
  | tanc => exact tancW_special.nan a (hfirst rfl)
  | cfrac => cases hi
  | fromint => cases hi
  | data => cases hi
  | cls => cases hi
  | mkval => cases hi

/-- Settles O57: the result word on a NaN operand is the canonical NaN. -/
theorem nanPropagates : Obligations.NaNPropagates := by
  unfold Obligations.NaNPropagates
  intro i s hi hnan
  obtain ⟨t, ht, hr⟩ := exec_writes_result i s
  refine ⟨t, ht, hr.trans (resultOf_nan hi ?_)⟩
  obtain ha | ⟨r, hrs2, hb⟩ := hnan
  · exact .inl ha
  · rw [hrs2]
    exact .inr ⟨rfl, hb⟩

/-! ### Canonical results -/

/-- The word is Normal or one of the canonical special words (R104). -/
def IsCanonical (w : Word) : Prop := isNormal w = false → w = nanW ∨ w = pinfW ∨ w = ninfW

theorem isCanonical_of_isNormal {w : Word} (h : isNormal w = true) : IsCanonical w :=
  fun hn => absurd h (by rw [hn]; decide)

theorem isCanonical_normalW (q : Int) : IsCanonical (normalW q) := isCanonical_of_isNormal (isNormal_normalW q)

theorem isCanonical_nanW : IsCanonical nanW := fun _ => .inl rfl

theorem isCanonical_pinfW : IsCanonical pinfW := fun _ => .inr (.inl rfl)

theorem isCanonical_ninfW : IsCanonical ninfW := fun _ => .inr (.inr rfl)

theorem isCanonical_ite {p : Prop} [Decidable p] {v w : Word} (hv : IsCanonical v) (hw : IsCanonical w) :
    IsCanonical (if p then v else w) := by
  split_ifs
  · exact hv
  · exact hw

theorem isCanonical_pack (n p g : Bool) (q : Int) : IsCanonical (pack n p g q) :=
  isCanonical_ite isCanonical_nanW (isCanonical_ite isCanonical_pinfW
    (isCanonical_ite isCanonical_ninfW (isCanonical_normalW q)))

/-- A result function of one operand whose table holds canonical words is canonical when it is so on Normal words. -/
theorem SpecialResults.isCanonical {f : Word → Word} {n p g : Word} (hf : SpecialResults f n p g) (hn : IsCanonical n)
    (hp : IsCanonical p) (hg : IsCanonical g) (hnormal : ∀ w, isNormal w = true → IsCanonical (f w)) (w : Word) :
    IsCanonical (f w) := by
  by_cases hnan : isNaN w = true
  · rw [hf.nan w (eq_of_beq hnan)]
    exact hn
  by_cases hpinf : isPInf w = true
  · rw [hf.pinf w (eq_of_beq hpinf)]
    exact hp
  by_cases hninf : isNInf w = true
  · rw [hf.ninf w (eq_of_beq hninf)]
    exact hg
  exact hnormal w (isNormal_of_not_special hnan hpinf hninf)

theorem isCanonical_negW (w : Word) : IsCanonical (negW w) :=
  negW_special.isCanonical isCanonical_nanW isCanonical_ninfW isCanonical_pinfW
    (fun _ h => isCanonical_of_isNormal (isNormal_negW h)) w

theorem isCanonical_absW (w : Word) : IsCanonical (absW w) := by
  refine absW_special.isCanonical isCanonical_nanW isCanonical_pinfW isCanonical_pinfW (fun w h => ?_) w
  rw [absW_of_normal h]
  exact isCanonical_ite (isCanonical_negW w) (isCanonical_of_isNormal h)

theorem isCanonical_sqrtW (w : Word) : IsCanonical (sqrtW w) :=
  isCanonical_ite isCanonical_nanW (isCanonical_ite isCanonical_pinfW (isCanonical_normalW _))

theorem isCanonical_expW (w : Word) : IsCanonical (expW w) := by
  have hzero : IsCanonical 0x00000000 := isCanonical_normalW 0
  refine expW_special.isCanonical isCanonical_nanW isCanonical_pinfW hzero (fun w h => ?_) w
  rw [expW_of_normal h]
  exact isCanonical_ite isCanonical_pinfW (isCanonical_ite hzero (isCanonical_ite isCanonical_pinfW (isCanonical_normalW _)))

theorem isCanonical_logW (op : LogOp) (w : Word) : IsCanonical (logW op w) :=
  isCanonical_ite isCanonical_nanW (isCanonical_ite isCanonical_nanW (isCanonical_ite isCanonical_ninfW
    (isCanonical_ite isCanonical_pinfW (isCanonical_ite isCanonical_ninfW (isCanonical_normalW _)))))

theorem isCanonical_trigW (fn : Int → Int) (w : Word) : IsCanonical (trigW fn w) :=
  isCanonical_ite isCanonical_nanW (isCanonical_normalW _)

theorem isCanonical_tangent (r : Tangent) : IsCanonical r.word := by
  cases r with
  | posInf => exact isCanonical_pinfW
  | negInf => exact isCanonical_ninfW
  | finite q => exact isCanonical_normalW q

theorem isCanonical_tancW (w : Word) : IsCanonical (tancW w) := isCanonical_ite isCanonical_nanW (isCanonical_tangent _)

theorem isCanonical_combine (a b : Word) (n : Bool) (q : Int) : IsCanonical (combine a b n q) := isCanonical_pack _ _ _ _

/-- Every arithmetic and transcendental command builds its result from `norm` and the canonical words (R104). -/
theorem isCanonical_resultOf {i : Instr} (hi : propagatesNaN i = true) (a b : Word) : IsCanonical (resultOf i a b) := by
  cases i with
  | neg => exact isCanonical_negW a
  | abs => exact isCanonical_absW a
  | add => exact isCanonical_pack _ _ _ _
  | sub => exact isCanonical_pack _ _ _ _
  | mul => exact isCanonical_combine _ _ _ _
  | div => exact isCanonical_combine _ _ _ _
  | sqrt => exact isCanonical_sqrtW a
  | exp => exact isCanonical_expW a
  | ln => exact isCanonical_logW .ln a
  | log2 => exact isCanonical_logW .log2 a
  | log10 => exact isCanonical_logW .log10 a
  | sin => exact isCanonical_trigW sinFn a
  | sinc => exact isCanonical_trigW sincFn a
  | cosc => exact isCanonical_trigW coscFn a
  | tanc => exact isCanonical_tancW a
  | cfrac => cases hi
  | fromint => cases hi
  | data => cases hi
  | cls => cases hi
  | mkval => cases hi

/-- Settles O58: the result word of such a command is canonical. -/
theorem specialResultsAreCanonical : Obligations.SpecialResultsAreCanonical := by
  unfold Obligations.SpecialResultsAreCanonical
  intro i s hi
  obtain ⟨t, ht, hr⟩ := exec_writes_result i s
  refine ⟨t, ht, ?_⟩
  rw [hr]
  exact isCanonical_resultOf hi _ _

end Sys2Proof.Machine
end

section
/-!
PROOFS. The inferences of the spec about sums, products and quotients (41_core_arith.md, 42_muldiv.md).
There is one nearest integer with ties to even, so what a rounding gives is known once a number is seen to be nearest: the
opposite for the opposite dividend, the same for a fraction expanded by a power of two. A nearest integer that is not 0 has
the sign of its fraction, from which the two sign rules for infinities agree.
-/

namespace Sys2Proof.Machine

open Sys2Proof.Claims

/-! ### The nearest integer is one -/

/-- Two nearest integers can only be the two neighbours of a tie, and of those only one is even. -/
theorem IsNearestEven.le {n d p q : Int} (hd : d ≠ 0) (hp : IsNearestEven n d p) (hq : IsNearestEven n d q) :
    p ≤ q := by
  by_contra! hlt
  obtain ⟨hpdist, hptie⟩ := hp
  obtain ⟨hqdist, hqtie⟩ := hq
  have hpos : 0 < |d| := abs_pos.2 hd
  have hgap : 2 * (|p - q| * |d|) ≤ |2 * (n - q * d)| + |2 * (n - p * d)| := by
    calc 2 * (|p - q| * |d|) = |2 * (n - q * d) - 2 * (n - p * d)| := by
          rw [← mul_sub, abs_mul, abs_two, ← abs_mul]
          ring_nf
      _ ≤ |2 * (n - q * d)| + |2 * (n - p * d)| := abs_sub _ _
  have hnext : |p - q| ≤ 1 := le_of_mul_le_mul_right (by linarith) hpos
  have hdiff : |p - q| = 1 := by
    rw [abs_of_pos (by omega)] at hnext ⊢
    omega
  rw [hdiff, one_mul] at hgap
  have hpeven := hptie (by linarith)
  have hqeven := hqtie (by linarith)
  rw [abs_of_pos (by omega)] at hdiff
  omega

theorem IsNearestEven.unique {n d p q : Int} (hd : d ≠ 0) (hp : IsNearestEven n d p) (hq : IsNearestEven n d q) :
    p = q :=
  le_antisymm (hp.le hd hq) (hq.le hd hp)

theorem IsNearestEven.neg {n d q : Int} (h : IsNearestEven n d q) : IsNearestEven (-n) d (-q) := by
  obtain ⟨hdist, htie⟩ := h
  have hsame : |2 * (-n - -q * d)| = |2 * (n - q * d)| := by
    rw [← abs_neg]
    ring_nf
  rw [IsNearestEven, hsame]
  refine ⟨hdist, fun h => ?_⟩
  have heven := htie h
  omega

theorem IsNearestEven.expand {n d q : Int} (h : IsNearestEven n d q) {c : Int} (hc : c ≠ 0) :
    IsNearestEven (n * c) (d * c) q := by
  obtain ⟨hdist, htie⟩ := h
  have hpos : 0 < |c| := abs_pos.2 hc
  have hscaled : |2 * (n * c - q * (d * c))| = |2 * (n - q * d)| * |c| := by
    rw [← abs_mul]
    ring_nf
  rw [IsNearestEven, hscaled, abs_mul d c]
  exact ⟨mul_le_mul_of_nonneg_right hdist hpos.le, fun h => htie (mul_right_cancel₀ hpos.ne' h)⟩

theorem rne_neg (x : Int) (n : Nat) : rne (-x) n = -rne x n :=
  (rne_isNearestEven (-x) n).unique (by positivity) (rne_isNearestEven x n).neg

theorem rneDiv_neg (n : Int) {d : Int} (hd : d ≠ 0) : rneDiv (-n) d = -rneDiv n d :=
  (rneDiv_isNearestEven (-n) hd).unique hd (rneDiv_isNearestEven n hd).neg

/-- Settles O52: the opposite of the nearest integer is nearest to the opposite, and there is no other. -/
theorem roundingIsOdd : Obligations.RoundingIsOdd := by
  unfold Obligations.RoundingIsOdd
  exact ⟨rne_neg, fun n _ hd => rneDiv_neg n hd⟩

/-- Rounding does not see factors of two that are shifted out again (R9). -/
theorem rne_mul_two_pow (x : Int) (n k : Nat) : rne (x * 2 ^ k) (n + k) = rne x n := by
  have h := (rne_isNearestEven x n).expand (c := 2 ^ k) (by positivity)
  rw [← pow_add] at h
  exact (rne_isNearestEven (x * 2 ^ k) (n + k)).unique (by positivity) h

/-! ### The words of the magnitudes -/

theorem neg_two_pow_le_opMag (w : Word) : -2 ^ 29 ≤ opMag w := by
  have hmag := neg_two_pow_le_mag w
  unfold opMag
  split_ifs <;> omega

theorem opMag_le (w : Word) : opMag w ≤ 2 ^ 29 - 1 := by
  have hmag := mag_le w
  unfold opMag
  split_ifs <;> omega

/-- A representable magnitude stands two places up in its word (R60, R105). -/
theorem toInt_normalW {q : Int} (hlo : -2 ^ 29 ≤ q) (hhi : q ≤ 2 ^ 29 - 1) : (normalW q).toInt = q * 4 :=
  BitVec.toInt_ofInt_eq_self (by decide) (by omega) (by omega)

theorem toInt_normalW_opMag (w : Word) : (normalW (opMag w)).toInt = opMag w * 4 :=
  toInt_normalW (neg_two_pow_le_opMag w) (opMag_le w)

/-- Settles O48: the product of the raw words is 16 times that of the magnitudes. -/
theorem mulOnRawWords : Obligations.MulOnRawWords := by
  unfold Obligations.MulOnRawWords
  intro a b
  have hproduct : opMag a * 4 * (opMag b * 4) = opMag a * opMag b * 2 ^ 4 := by ring
  rw [toInt_normalW_opMag, toInt_normalW_opMag, hproduct]
  exact (rne_mul_two_pow _ 15 4).symm

theorem normalW_add (p q : Int) : normalW p + normalW q = normalW (p + q) := by
  rw [normalW, normalW, normalW, add_mul, BitVec.ofInt_add]

/-- The sign bit of the word of a sum, which wraps at `2^29` in either direction. -/
theorem msb_normalW (q : Int) : (normalW q).msb = decide ((q * 4).bmod (2 ^ 32) < 0) := by
  rw [normalW, BitVec.msb_eq_toInt, BitVec.toInt_ofInt]

/-- Settles O46: the raw sum is the word of the exact sum, whose sign bit is wrong exactly when the sum wraps. -/
theorem addOverflowBySignBits : Obligations.AddOverflowBySignBits := by
  unfold Obligations.AddOverflowBySignBits
  rintro a b A B S rfl rfl rfl
  have halo := neg_two_pow_le_opMag a
  have hahi := opMag_le a
  have hblo := neg_two_pow_le_opMag b
  have hbhi := opMag_le b
  rw [normalW_add]
  refine ⟨?_, ?_, fun hfits => ?_⟩
  · simp only [msb_normalW, Int.bmod_def, decide_eq_true_eq, decide_eq_false_iff_not]
    omega
  · simp only [msb_normalW, Int.bmod_def, decide_eq_true_eq, decide_eq_false_iff_not]
    omega
  · obtain ⟨hlo, hhi⟩ := of_decide_eq_true hfits
    exact isValue_normalW hlo hhi

/-! ### `ADD` and `MUL` are commutative -/

theorem addW_comm (a b : Word) : addW a b = addW b a := by
  simp only [addW, add_comm (opMag a), Bool.or_comm (isNaN a), Bool.or_comm (isPInf a), Bool.or_comm (isNInf a)]

theorem mulW_comm (a b : Word) : mulW a b = mulW b a := by
  simp only [mulW, combine, infSign, combineWith, mul_comm (opMag a), Bool.or_comm (isNaN a), Bool.or_comm (isPInf a),
    Bool.or_comm (isNInf a)]

/-- Commands with one destination and one result leave one state (R100). -/
theorem exec_eq_of_result_eq {i j : Instr} {s : State} (hrd : i.rd = j.rd)
    (hresult : resultOf i (s.srcA i.rs1) (s.srcB (i.rs2.getD 0)) = resultOf j (s.srcA j.rs1) (s.srcB (j.rs2.getD 0))) :
    exec i s = exec j s := by
  rw [exec_eq_complete, exec_eq_complete, hrd, hresult]

/-- Settles O47: on an idle block the two commands apply a commutative function to the two registers. -/
theorem addMulCommute : Obligations.AddMulCommute := by
  unfold Obligations.AddMulCommute
  intro rd r1 r2 s hidle
  refine ⟨exec_eq_of_result_eq rfl ?_, exec_eq_of_result_eq rfl ?_⟩
  · simp only [State.srcA_idle hidle, State.srcB_idle hidle]
    exact addW_comm _ _
  · simp only [State.srcA_idle hidle, State.srcB_idle hidle]
    exact mulW_comm _ _

/-! ### The two sign rules for infinities -/

/-- A nearest integer that is not 0 has the sign of its fraction. -/
theorem IsNearestEven.sign {n d q : Int} (hd : d ≠ 0) (h : IsNearestEven n d q) :
    (0 < q → 0 < n * d) ∧ (q < 0 → n * d < 0) := by
  obtain ⟨hdist, -⟩ := h
  have hsq : 0 < d * d := mul_self_pos.2 hd
  have hscaled : |2 * (n * d - q * (d * d))| ≤ d * d := by
    calc |2 * (n * d - q * (d * d))| = |2 * (n - q * d)| * |d| := by
          rw [← abs_mul]
          ring_nf
      _ ≤ |d| * |d| := mul_le_mul_of_nonneg_right hdist (abs_nonneg d)
      _ = d * d := abs_mul_abs_self d
  obtain ⟨hlo, hhi⟩ := abs_le.1 hscaled
  constructor
  · intro hq
    nlinarith
  · intro hq
    nlinarith

/-- Of a Normal word the extended sign is that of its magnitude (R140). -/
theorem extSign_of_normal {w : Word} (h : isNormal w = true) : extSign w = decide (opMag w < 0) := by
  obtain ⟨-, -, hninf⟩ := not_special_of_isNormal h
  rw [opMag_of_normal h, extSign, hninf, Bool.false_or, isNegN, h, Bool.true_and, msb_eq_mag_neg]

/-- The signs of two factors differ exactly when their product, not 0, is negative. -/
theorem xor_neg_eq {x y : Int} (h : x * y ≠ 0) : (decide (x < 0) ^^ decide (y < 0)) = decide (x * y < 0) := by
  have hx : x ≠ 0 := left_ne_zero_of_mul h
  have hy : y ≠ 0 := right_ne_zero_of_mul h
  obtain hx | hx := lt_or_gt_of_ne hx <;> obtain hy | hy := lt_or_gt_of_ne hy
  · simp [hx, hy, (mul_pos_of_neg_of_neg hx hy).not_gt]
  · simp [hx, hy.not_gt, mul_neg_of_neg_of_pos hx hy]
  · simp [hx.not_gt, hy, mul_neg_of_pos_of_neg hx hy]
  · simp [hx.not_gt, hy.not_gt, (mul_pos hx hy).not_gt]

/-- Without infinite operands an overflow has the sign of the rounded result, which is that of the product (R140). -/
theorem combineWith_styles_agree {a b : Word} {n : Bool} {q : Int} (ha : isInf a = false) (hb : isInf b = false)
    (hnan : n = false → isNaN a = false ∧ isNaN b = false) (hpos : 0 < q → 0 < opMag a * opMag b)
    (hneg : q < 0 → opMag a * opMag b < 0) : combineWith .addStyle a b n q = combineWith .xorSign a b n q := by
  cases n with
  | true => rfl
  | false =>
    obtain ⟨hnana, hnanb⟩ := hnan rfl
    have hna : isNormal a = true := isNormal_of_not_isInf (by simp [hnana]) (by simp [ha])
    have hnb : isNormal b = true := isNormal_of_not_isInf (by simp [hnanb]) (by simp [hb])
    obtain ⟨-, hpa, hga⟩ := not_special_of_isNormal hna
    obtain ⟨-, hpb, hgb⟩ := not_special_of_isNormal hnb
    simp only [combineWith, ha, hb, hpa, hpb, hga, hgb, Bool.not_false, Bool.true_and, Bool.false_or,
      extSign_of_normal hna, extSign_of_normal hnb]
    cases hfits : fits q with
    | true => simp
    | false =>
      obtain hq | rfl | hq := lt_trichotomy q 0
      · have hproduct := hneg hq
        simp [xor_neg_eq hproduct.ne, hproduct, hq, hq.not_gt]
      · cases hfits
      · have hproduct := hpos hq
        simp [xor_neg_eq hproduct.ne', hproduct.not_gt, hq]

/-- Settles O49: both results are rounded fractions with the sign of the product of the operands. -/
theorem infSignRulesAgree : Obligations.InfSignRulesAgree := by
  unfold Obligations.InfSignRulesAgree
  intro a b ha hb
  constructor
  · rintro n q rfl rfl
    obtain ⟨hpos, hneg⟩ := (rne_isNearestEven (opMag a * opMag b) 15).sign (by positivity)
    refine combineWith_styles_agree ha hb (fun hn => Bool.or_eq_false_iff.1 hn) (fun hq => ?_) (fun hq => ?_)
    · exact pos_of_mul_pos_left (hpos hq) (by positivity)
    · exact neg_of_mul_neg_left (hneg hq) (by positivity)
  · rintro n q hn rfl
    cases n with
    | true => rfl
    | false =>
      obtain ⟨hnan, hzero⟩ := Bool.or_eq_false_iff.1 hn.symm
      have hd : opMag b ≠ 0 := of_decide_eq_false hzero
      obtain ⟨hpos, hneg⟩ := (rneDiv_isNearestEven (opMag a * 2 ^ 15) hd).sign hd
      have hfraction : opMag a * 2 ^ 15 * opMag b = opMag a * opMag b * 2 ^ 15 := by ring
      rw [hfraction] at hpos hneg
      refine combineWith_styles_agree ha hb (fun _ => Bool.or_eq_false_iff.1 hnan) (fun hq => ?_) (fun hq => ?_)
      · exact pos_of_mul_pos_left (hpos hq) (by positivity)
      · exact neg_of_mul_neg_left (hneg hq) (by positivity)

end Sys2Proof.Machine
end

section
/-!
PROOFS. The byte lanes of the window (R43).
-/

namespace Sys2Proof.Machine

/-- The byte `k` above an aligned offset lies in the word of that offset, in its lane `k` (R41, R43). -/
theorem lane_of_byte {off b : BitVec 6} {k : Fin 4} (halign : off.toNat % 4 = 0) (hb : b.toNat = off.toNat + k) :
    windowReg b = windowReg off ∧ (b.extractLsb' 0 2).toNat = k := by
  obtain rfl : b = BitVec.ofNat 6 (off.toNat + k) := by rw [← hb, BitVec.ofNat_toNat, BitVec.setWidth_eq]
  clear hb
  revert off k
  decide

/-- Settles O60: the byte's word and lane, with the little-endian address of the lane. -/
theorem byteLanes : Obligations.ByteLanes := by
  unfold Obligations.ByteLanes
  intro s off b k halign hb
  obtain ⟨hreg, hlane⟩ := lane_of_byte halign hb
  refine ⟨?_, rfl⟩
  simp only [State.laneByte, lanes, State.windowWord, hreg, hlane]

end Sys2Proof.Machine
end

section
/-!
PROOFS. The square-root engine is correctly rounded (R161, R162).
With `R` one more than the floor of the root, a Newton step from above `R` shortens the relative distance to `R` from `1/K`
to `1/(2K(K+1))`. The seed is at most `2R`, so four steps bring the estimate to at most `R`, one more to the floor of the
root, and no step goes below it. The final round then compares `N` with the square of the half-way point.
-/

namespace Sys2Proof.Machine

/-! ### One Newton step -/

/-- One step of the engine (R161). -/
def newtonStep (N x : Nat) : Nat := min x ((x + N / max x 1) / 2)

theorem newton_succ (N k x : Nat) : newton N (k + 1) x = newton N k (newtonStep N x) := rfl

theorem newtonStep_le (N x : Nat) : newtonStep N x ≤ x := min_le_left ..

/-- The step is at most the mean of the estimate and the exact quotient, cleared of the division. -/
theorem two_mul_newtonStep_mul_le (N x : Nat) : 2 * newtonStep N x * x ≤ x * x + N := by
  obtain rfl | hx := Nat.eq_zero_or_pos x
  · simp
  have hmean : 2 * newtonStep N x ≤ x + N / x := by
    have hstep : newtonStep N x ≤ (x + N / max x 1) / 2 := min_le_right ..
    rw [max_eq_left hx] at hstep
    omega
  calc 2 * newtonStep N x * x ≤ (x + N / x) * x := Nat.mul_le_mul_right x hmean
    _ = x * x + N / x * x := add_mul ..
    _ ≤ x * x + N := Nat.add_le_add_left (Nat.div_mul_le_self N x) _

/-- The mean of an estimate and its quotient is not below the root, even with both divisions rounded down. -/
theorem le_newtonStep {N r x : Nat} (hr : r * r ≤ N) (hx : r ≤ x) : r ≤ newtonStep N x := by
  refine le_min hx ?_
  obtain rfl | hpos := Nat.eq_zero_or_pos x
  · exact hx.trans (Nat.zero_le _)
  rw [max_eq_left hpos, Nat.le_div_iff_mul_le two_pos, ← Nat.sub_le_iff_le_add', Nat.le_div_iff_mul_le hpos]
  obtain ⟨e, rfl⟩ := Nat.exists_eq_add_of_le hx
  obtain hneg | hnonneg := Nat.le_total (r * 2) (r + e)
  · rw [Nat.sub_eq_zero_of_le hneg, zero_mul]
    exact N.zero_le
  · obtain ⟨d, rfl⟩ := Nat.exists_eq_add_of_le (show e ≤ r by omega)
    have hdiff : (e + d) * 2 - (e + d + e) = d := by omega
    rw [hdiff]
    nlinarith

theorem le_newton {N r : Nat} (hr : r * r ≤ N) (k : Nat) {x : Nat} (hx : r ≤ x) : r ≤ newton N k x := by
  induction k generalizing x with
  | zero => exact hx
  | succ k ih =>
    rw [newton_succ]
    exact ih (le_newtonStep hr hx)

/-! ### Convergence -/

/-- The estimate exceeds `R` by at most the `K`-th part of it. -/
def WithinPart (R K x : Nat) : Prop := K * x ≤ (K + 1) * R

/-- The quadratic convergence of a step: `K (x - R) ≤ R` gives `2K(K+1) (x' - R) ≤ R`. -/
theorem WithinPart.contract {N R K x : Nat} (hN : N ≤ R * R) (h : WithinPart R K x) :
    WithinPart R (2 * K * (K + 1)) (newtonStep N x) := by
  unfold WithinPart at *
  obtain hle | hlt := Nat.le_total x R
  · have hstep := (newtonStep_le N x).trans hle
    exact Nat.mul_le_mul (Nat.le_succ _) hstep
  obtain ⟨d, rfl⟩ := Nat.exists_eq_add_of_le hlt
  have hmean := two_mul_newtonStep_mul_le N (R + d)
  have hpart : K * d ≤ R := by nlinarith
  obtain hzero | hpos := Nat.eq_zero_or_pos (R + d)
  · have hstep := newtonStep_le N (R + d)
    rw [hzero, Nat.le_zero] at hstep
    rw [hzero, hstep]
    simp
  refine Nat.le_of_mul_le_mul_right (c := 2 * (R + d)) ?_ (by omega)
  have hsquare : K * d * ((K + 1) * d) ≤ R * (R + d) := Nat.mul_le_mul hpart (by nlinarith)
  calc 2 * K * (K + 1) * newtonStep N (R + d) * (2 * (R + d))
      = 2 * K * (K + 1) * (2 * newtonStep N (R + d) * (R + d)) := by ring
    _ ≤ 2 * K * (K + 1) * ((R + d) * (R + d) + R * R) := Nat.mul_le_mul_left _ (by omega)
    _ = 2 * K * (K + 1) * (2 * R * (R + d)) + 2 * (K * d * ((K + 1) * d)) := by ring
    _ ≤ 2 * K * (K + 1) * (2 * R * (R + d)) + 2 * (R * (R + d)) := by omega
    _ = (2 * K * (K + 1) + 1) * R * (2 * (R + d)) := by ring

/-- A part smaller than one unit is none. -/
theorem WithinPart.le {R K x : Nat} (h : WithinPart R K x) (hK : R < K) : x ≤ R := by
  unfold WithinPart at h
  by_contra! hlt
  have hscaled : K * (R + 1) ≤ K * x := Nat.mul_le_mul_left K hlt
  nlinarith

/-- From `R` or less a step falls below `R` when the root does. -/
theorem newtonStep_lt {N R x : Nat} (hN : N < R * R) (hx : x ≤ R) : newtonStep N x < R := by
  obtain hlt | rfl := hx.lt_or_eq
  · exact (newtonStep_le N x).trans_lt hlt
  · have hmean := two_mul_newtonStep_mul_le N x
    by_contra! hge
    nlinarith

/-! ### The engine -/

theorem lt_two_pow_bitlen (N : Nat) : N < 2 ^ bitlen N := by
  unfold bitlen
  split_ifs with hN
  · simp [hN]
  · exact Nat.lt_log2_self

theorem two_pow_bitlen_le {N : Nat} (hN : N ≠ 0) : 2 ^ bitlen N ≤ 2 * N := by
  rw [bitlen, if_neg hN, pow_succ, mul_comm]
  exact Nat.mul_le_mul_left 2 (Nat.log2_self_le hN)

/-- The square of the seed is above `N` and at most `4 N` (R161). -/
theorem seed_sq_bounds (N : Nat) :
    N < 2 ^ ((bitlen N + 1) / 2) * 2 ^ ((bitlen N + 1) / 2) ∧
    (N ≠ 0 → 2 ^ ((bitlen N + 1) / 2) * 2 ^ ((bitlen N + 1) / 2) ≤ 4 * N) := by
  rw [← pow_add]
  refine ⟨(lt_two_pow_bitlen N).trans_le (Nat.pow_le_pow_right two_pos (by omega)), fun hN => ?_⟩
  calc 2 ^ ((bitlen N + 1) / 2 + (bitlen N + 1) / 2)
      ≤ 2 ^ (bitlen N + 1) := Nat.pow_le_pow_right two_pos (by omega)
    _ = 2 ^ bitlen N * 2 := pow_succ ..
    _ ≤ 4 * N := by linarith [two_pow_bitlen_le hN]

/-- The seed is at most twice one more than the floor of the root. -/
theorem seed_withinPart (N : Nat) : WithinPart (N.sqrt + 1) 1 (2 ^ ((bitlen N + 1) / 2)) := by
  unfold WithinPart
  obtain rfl | hN := eq_or_ne N 0
  · decide
  obtain ⟨-, hsq⟩ := seed_sq_bounds N
  have hroot := N.lt_succ_sqrt
  have hseed := hsq hN
  by_contra! hlt
  nlinarith

/-- Five steps reach the floor of the root, and the other three stay there (R161, R162). -/
theorem newton_eq_sqrt {N : Nat} (hN : N < 2 ^ 44) : newton N 8 (2 ^ ((bitlen N + 1) / 2)) = N.sqrt := by
  have hroot : N < (N.sqrt + 1) * (N.sqrt + 1) := N.lt_succ_sqrt
  have hsmall : N.sqrt < 2 ^ 22 := Nat.sqrt_lt.2 (by omega)
  obtain ⟨habove, -⟩ := seed_sq_bounds N
  refine le_antisymm ?_ (le_newton N.sqrt_le 8 (Nat.sqrt_lt.2 habove).le)
  have hfour := ((((seed_withinPart N).contract hroot.le).contract hroot.le).contract hroot.le).contract hroot.le
  have hfive := newtonStep_lt hroot (hfour.le (by omega))
  exact (newton_le N 3 _).trans (Nat.le_of_lt_succ hfive)

/-- Rounding up above the half-way point makes the floor of a root the nearest integer (R161). -/
theorem round_floor_correct {N r : Nat} (hlo : r * r ≤ N) (hhi : N < (r + 1) * (r + 1)) :
    4 * N < (2 * (if N - r * r > r then r + 1 else r) + 1) ^ 2 ∧
    (0 < (if N - r * r > r then r + 1 else r) → (2 * (if N - r * r > r then r + 1 else r) - 1) ^ 2 < 4 * N) := by
  obtain ⟨e, rfl⟩ := Nat.exists_eq_add_of_le hlo
  rw [Nat.add_sub_cancel_left]
  split_ifs with hup
  · have hhalf : 2 * (r + 1) - 1 = 2 * r + 1 := by omega
    rw [hhalf]
    exact ⟨by nlinarith, fun _ => by nlinarith⟩
  · refine ⟨by nlinarith, fun hr => ?_⟩
    obtain ⟨k, rfl⟩ := Nat.exists_eq_add_of_lt hr
    have hhalf : 2 * (0 + k + 1) - 1 = 2 * k + 1 := by omega
    rw [hhalf]
    nlinarith

/-- Settles O53: the engine's estimate is the floor of the root, and its last round is to nearest. -/
theorem sqrtCorrectlyRounded : Obligations.SqrtCorrectlyRounded := by
  unfold Obligations.SqrtCorrectlyRounded
  intro m hm
  have hN : m * 2 ^ 15 < 2 ^ 44 := by omega
  simp only [sqrtRef, newton_eq_sqrt hN]
  exact round_floor_correct (Nat.sqrt_le _) (Nat.lt_succ_sqrt _)

end Sys2Proof.Machine
end

section
/-!
PROOFS. The logarithm evaluator's results are representable (R180, R181).
The integer logarithm is taken so that the mantissa lies within one half of 1. Horner's rule then at least halves its
accumulator in each step before it adds a coefficient, so a bound on it is computed from the coefficients; the integer part
is at most 15 in size.
-/

namespace Sys2Proof.Machine

/-! ### Rounding keeps integer bounds -/

theorem rne_le {x b : Int} {n : Nat} (h : x ≤ b * 2 ^ n) : rne x n ≤ b := by
  have hpos : (0 : Int) < 2 ^ n := by positivity
  obtain ⟨hdist, -⟩ := rne_isNearestEven x n
  rw [abs_of_pos hpos] at hdist
  obtain ⟨hlo, -⟩ := abs_le.1 hdist
  by_contra! hlt
  have hscaled : (b + 1) * 2 ^ n ≤ rne x n * 2 ^ n := mul_le_mul_of_nonneg_right hlt hpos.le
  linarith

theorem le_rne {x b : Int} {n : Nat} (h : b * 2 ^ n ≤ x) : b ≤ rne x n := by
  have hneg : rne (-x) n ≤ -b := rne_le (by linarith)
  rw [rne_neg] at hneg
  exact neg_le_neg_iff.1 hneg

/-! ### The mantissa -/

/-- A word between `2^k` and `2^(k+1)` is in the upper half exactly when its bit `k - 1` is set. -/
theorem testBit_iff_upper_half {m p : Nat} {j : Nat} (hp : 2 ^ j = p) (hlo : 2 * p ≤ m) (hhi : m < 4 * p) :
    m.testBit j = true ↔ 3 * p ≤ m := by
  rw [Nat.testBit_eq_decide_div_mod_eq, decide_eq_true_eq, hp]
  have hpos : 0 < p := hp ▸ Nat.two_pow_pos j
  have hmod := Nat.div_add_mod m p
  have hlt := Nat.mod_lt m hpos
  have hq : m / p = 2 ∨ m / p = 3 := by
    have hge : 2 ≤ m / p := (Nat.le_div_iff_mul_le hpos).2 hlo
    have hle : m / p < 4 := (Nat.div_lt_iff_lt_mul hpos).2 hhi
    omega
  obtain hq | hq := hq <;> rw [hq] at hmod ⊢ <;> omega

/-- `e` of R181: the number of the highest bit, plus the bit below it. -/
theorem logExponent_eq (m : Nat) : logExponent m =
    bitlen m - 1 + if bitlen m - 1 ≥ 1 ∧ m.testBit (bitlen m - 1 - 1) = true then 1 else 0 := rfl

/-- The mantissa `m / 2^e` lies between one half and three halves (R181). -/
theorem logExponent_bounds {m : Nat} (hm : 1 ≤ m) : 2 ^ logExponent m ≤ 2 * m ∧ 2 * m ≤ 3 * 2 ^ logExponent m := by
  have hhi : m < 2 ^ bitlen m := lt_two_pow_bitlen m
  have hlo : 2 ^ bitlen m ≤ 2 * m := two_pow_bitlen_le (by omega)
  rw [logExponent_eq]
  obtain ⟨k, hk⟩ : ∃ k, bitlen m = k + 1 := ⟨Nat.log2 m, if_neg (by omega)⟩
  rw [hk] at hhi hlo ⊢
  rw [pow_succ] at hhi hlo
  rw [Nat.add_sub_cancel]
  cases k with
  | zero =>
    rw [if_neg (by simp)]
    omega
  | succ j =>
    rw [pow_succ] at hhi hlo
    have hupper : (j + 1 ≥ 1 ∧ m.testBit (j + 1 - 1) = true) ↔ 3 * 2 ^ j ≤ m :=
      (and_iff_right (Nat.succ_pos j)).trans (testBit_iff_upper_half rfl (by omega) (by omega))
    rw [if_congr hupper rfl rfl]
    split_ifs with hhalf
    · rw [pow_succ, pow_succ]
      omega
    · rw [Nat.add_zero, pow_succ]
      omega

theorem logExponent_le {m : Nat} (hm : m < 2 ^ 29) : logExponent m ≤ 29 := by
  have hlen := bitlen_le hm
  rw [logExponent_eq]
  split_ifs <;> omega

/-- The mantissa less 1 is at most one half in size, in Q.28 (R181). -/
theorem abs_logMantissa_le {m : Nat} (hm : 1 ≤ m) : |logMantissa m| ≤ 2 ^ 27 := by
  obtain ⟨hlo, hhi⟩ := logExponent_bounds hm
  have hlo' : (2 : Int) ^ logExponent m ≤ 2 * m := by exact_mod_cast hlo
  have hhi' : 2 * (m : Int) ≤ 3 * 2 ^ logExponent m := by exact_mod_cast hhi
  have hge : 2 ^ 27 ≤ rne ((m : Int) * 2 ^ 28) (logExponent m) := le_rne (by linarith)
  have hle : rne ((m : Int) * 2 ^ 28) (logExponent m) ≤ 3 * 2 ^ 27 := rne_le (by linarith)
  rw [logMantissa, one28, abs_le]
  omega

/-! ### Horner's rule -/

/-- A bound on Horner's accumulator from a bound on its start, when the argument is at most one half. -/
def hornerBound (a : Int) : List Int → Int
  | [] => a
  | c :: cs => hornerBound ((a + 1) / 2 + |c|) cs

/-- A bound on the polynomial's value, when the argument is at most one half. -/
def logPolyBound : List Int → Int
  | [] => 0
  | c :: cs => (hornerBound |c| cs + 1) / 2

section
variable {M : Int} (hM : |M| ≤ 2 ^ 27)
include hM

/-- A product with an argument of at most one half is at most one half of the other factor. -/
theorem abs_rne_half_le {x a : Int} (hx : |x| ≤ a) : |rne (x * M) 28| ≤ (a + 1) / 2 := by
  apply abs_rne_le
  have hproduct : |x| * |M| ≤ a * 2 ^ 27 := mul_le_mul hx hM (abs_nonneg M) ((abs_nonneg x).trans hx)
  rw [abs_mul]
  omega

theorem abs_horner_le (cs : List Int) {acc a : Int} (hacc : |acc| ≤ a) : |horner M acc cs| ≤ hornerBound a cs := by
  induction cs generalizing acc a with
  | nil => exact hacc
  | cons c cs ih => exact ih ((abs_add_le _ _).trans (add_le_add_left (abs_rne_half_le hM hacc) _))

theorem abs_logPoly_le (cs : List Int) : |logPoly M cs| ≤ logPolyBound cs := by
  cases cs with
  | nil => exact le_rfl
  | cons c cs => exact abs_rne_half_le hM (abs_horner_le hM cs le_rfl)

end

/-! ### The result -/

/-- The polynomial and the largest integer part together are representable (R182). -/
theorem logPolyBound_add_le (op : LogOp) :
    logPolyBound (logCoeffs op) + 15 * |logOfTwo op| ≤ (2 ^ 19 - 1) * 2 ^ 13 := by
  cases op <;> decide

theorem logCorrection_eq_zero (op : LogOp) : logCorrection op = 0 := by
  cases op <;> rfl

/-- Settles O54: the polynomial and the integer part are bounded, and rounding keeps their bound. -/
theorem logResultsRepresentable : Obligations.LogResultsRepresentable := by
  unfold Obligations.LogResultsRepresentable
  intro op m hm hlt
  have hpoly := abs_logPoly_le (abs_logMantissa_le hm) (logCoeffs op)
  have hexponent : |(logExponent m : Int) - 15| ≤ 15 := by
    have hle := logExponent_le hlt
    rw [abs_le]
    omega
  have hsum : |logPoly (logMantissa m) (logCoeffs op) + ((logExponent m : Int) - 15) * logOfTwo op| ≤
      (2 ^ 19 - 1) * 2 ^ 13 := by
    calc |logPoly (logMantissa m) (logCoeffs op) + ((logExponent m : Int) - 15) * logOfTwo op|
        ≤ |logPoly (logMantissa m) (logCoeffs op)| + |(logExponent m : Int) - 15| * |logOfTwo op| := by
          rw [← abs_mul]
          exact abs_add_le _ _
      _ ≤ logPolyBound (logCoeffs op) + 15 * |logOfTwo op| :=
          add_le_add hpoly (mul_le_mul_of_nonneg_right hexponent (abs_nonneg _))
      _ ≤ (2 ^ 19 - 1) * 2 ^ 13 := logPolyBound_add_le op
  have hrounded := abs_rne_le hsum
  rw [logRef, logCorrection_eq_zero, add_zero]
  exact Int.lt_of_le_sub_one hrounded

/-- Settles O55: the 29 powers, evaluated. -/
theorem log2OfPowersOfTwo : Obligations.Log2OfPowersOfTwo := by
  unfold Obligations.Log2OfPowersOfTwo
  decide

end Sys2Proof.Machine
end

section
/-!
PROOFS. The CORDIC iterations converge (R205, R206).
An iteration turns towards zero: from an angle within `b` it leaves one within the micro-angle, or within what `b` exceeds it
by. That bound depends on the table alone, and for the 24 micro-angles it comes down from a quarter turn to 21.
-/

namespace Sys2Proof.Machine

/-- The bound on the angle that is left after the micro-angles of a list, from a bound `b` before them. -/
def residualBound (b : Int) : List Int → Int
  | [] => b
  | angle :: rest => residualBound (max angle (b - angle)) rest

/-- An iteration overshoots zero by at most the micro-angle, or leaves what exceeds it (R206). -/
theorem abs_turn_t_le {r : Rotation} {b : Int} (h : |r.t| ≤ b) (i : Nat) (angle : Int) :
    |(r.turn i angle).t| ≤ max angle (b - angle) := by
  rw [abs_le] at h
  unfold Rotation.turn
  split_ifs <;> simp only [abs_le] <;> omega

theorem abs_cordicFrom_t_le (angles : List Int) {b : Int} (i : Nat) {r : Rotation} (h : |r.t| ≤ b) :
    |(cordicFrom i r angles).t| ≤ residualBound b angles := by
  induction angles generalizing i r b with
  | nil => exact h
  | cons angle rest ih => exact ih (i + 1) (abs_turn_t_le h i angle)

theorem residualBound_atanTable : residualBound (2 ^ 28) atanTable = 21 := by simp [residualBound, atanTable]

/-- Settles O56: the bound of the table, from a quarter turn. -/
theorem cordicConverges : Obligations.CordicConverges := by
  unfold Obligations.CordicConverges
  intro θ hlo hhi
  rw [← residualBound_atanTable]
  exact abs_cordicFrom_t_le atanTable 0 (abs_le.2 ⟨hlo, hhi⟩)

end Sys2Proof.Machine
end
